-- ==== Sys2Proof/Word.lean ====
section
/-! DEFINITION. The words of the block: bytes, and the 64-wire carrier of the value ports. -/

namespace Sys2Proof

/-- A byte of BUF, SIN or SOUT, and a command word (spec/20_memory.md R60, spec/30_encoding.md R85). -/
abbrev Byte := BitVec 8

/-- The carrier of `VALUE_IN` and `RESULT`. The spec gives these ports C or W bits by configuration
(spec/10_state.md R32, R33, R34), and no legal C or W exceeds 64. A C-bit value stands zero-extended on the
carrier, and a command looks only at the low C (or W) wires. DESIGN CHOICE, log entry 4. -/
abbrev Bus := BitVec 64

end Sys2Proof
end

