-- ==== Sys2Proof/Config.lean ====
section
/-! DEFINITION. The configuration of a CORE instance (CFG, parameters P1 to P13 of spec/10_state.md R38 to R40),
what the elaborating system supplies, the ways elaboration is refused, and the values the spec leaves open. -/

namespace Sys2Proof

/-- The two orders a requested ordering resolves to (spec/00_scope.md R14, R25). -/
inductive ByteOrder where
  | little
  | big
deriving DecidableEq, Repr

/-- The closed enumeration of requested orderings (spec/30_encoding.md R88). -/
inductive Endian where
  | little
  | big
  | native
  | network
deriving DecidableEq, Repr

/-- P1 to P4: the BitWidthSpec of an integer codec (spec/10_state.md R38). -/
structure BitWidthSpec where
  /-- P1 `C`, the container width in bits (spec/00_scope.md R7). -/
  c : Nat
  /-- P2 `SIGNED` (spec/00_scope.md R8). -/
  signed : Bool
  /-- P3 `N`, the number of value bits (spec/00_scope.md R9). -/
  n : Nat
  /-- P4 `ALIGNED` (spec/00_scope.md R10). -/
  aligned : Bool
deriving DecidableEq, Repr

/-- The layout (sign, E exponent bits, F fraction bits) of a float pattern (spec/00_scope.md R11). The FC's own
format and the two native formats are each one of these. -/
structure FloatFmt where
  /-- P5 `E`. -/
  e : Nat
  /-- P6 `F`. -/
  f : Nat
deriving DecidableEq, Repr

/-- P5 to P8: the FloatFormatSpec (spec/10_state.md R39). -/
structure FloatFormatSpec extends FloatFmt where
  /-- P7 `T`, the container width of the transport (spec/00_scope.md R12). -/
  t : Nat
  /-- P8 `W`, the width of the native value port (spec/00_scope.md R13). -/
  w : Nat
deriving DecidableEq, Repr

/-- P13 `NATIVE_ROUND` (spec/00_scope.md R18, spec/41_float_codec.md R131), as plain data: the spec's default, or
some other host conversion. `host k` stands for any conversion at all: its results on values that are not native
are the free values `Config.hostRound k`. -/
inductive NativeRound where
  | rneOnce
  | host (k : Nat)
deriving DecidableEq, Repr

/-- The bits of the canonical native quiet NaN (spec/41_float_codec.md R132; spec/93_implementation_defined.md U4
makes them a parameter): the spec's own `QNAN_W`, or some other quiet NaN `other k`, whose sign and payload are
the free values `Config.nanSign k` and `Config.nanPayload k`. DESIGN CHOICE, log entry 9. -/
inductive NanBits where
  | canonical
  | other (k : Nat)
deriving DecidableEq, Repr

/-- CFG: every parameter of the instance (spec/10_state.md R30, R38 to R40). Plain data; whether it is legal is
decided by `CoreConfig.check`. -/
structure CoreConfig where
  /-- P1 to P4. -/
  ic : BitWidthSpec
  /-- P5 to P8. -/
  fc : FloatFormatSpec
  /-- P9 `NATIVE_ENDIAN` (spec/00_scope.md R14). -/
  nativeEndian : ByteOrder
  /-- P10 `DEFAULT_ENDIAN` (spec/00_scope.md R15). -/
  defaultEndian : Endian
  /-- P11 `DEFAULT_ALIGNED`, used at elaboration only (spec/00_scope.md R17). -/
  defaultAligned : Bool
  /-- P12 `MAX_BUFFER_BYTES`: a bound, or `none` for ∞ (spec/00_scope.md R16). -/
  maxBuffer : Option Nat
  /-- P13 `NATIVE_ROUND`. -/
  nativeRound : NativeRound
  /-- The bits of the native quiet NaN, open by U4. -/
  nanBits : NanBits
deriving DecidableEq, Repr

/-- Where the elaborating system takes `NATIVE_ENDIAN` from (spec/10_state.md R43, spec/70_reset_and_hazards.md
R172): an explicit override, a probe, nothing, or an ambiguous override. -/
inductive NativeSource where
  | override (b : ByteOrder)
  | probe (b : ByteOrder)
  | unset
  | ambiguous
deriving DecidableEq, Repr

/-- What the elaborating system supplies (spec/70_reset_and_hazards.md R175, steps 1 to 4). -/
structure ElabArgs where
  nativeSource : NativeSource
  /-- `none`: no ordering was given. -/
  defaultEndian : Option Endian
  defaultAligned : Bool
  c : Nat
  signed : Bool
  n : Nat
  /-- `none`: no value was given, so `ALIGNED` takes `DEFAULT_ALIGNED` (spec/00_scope.md R10). -/
  aligned : Option Bool
  e : Nat
  f : Nat
  t : Nat
  w : Nat
  maxBuffer : Option Nat
  nativeRound : NativeRound
  nanBits : NanBits
deriving DecidableEq, Repr

/-- The checks whose failure refuses elaboration (spec/10_state.md R57, R58; spec/60_exceptions.md R156). -/
inductive ElabError where
  /-- `NATIVE_ENDIAN` is unset or ambiguous (R58, spec/10_state.md R43). -/
  | nativeEndian
  /-- `DEFAULT_ENDIAN` is none of the four orderings (R58). -/
  | defaultEndian
  /-- `C ∉ {8, 16, 32, 64}` (R57). -/
  | containerWidth
  /-- `N < 1` or `N > C` (R57). -/
  | valueBits
  /-- `E < 1` (R58). -/
  | exponentBits
  /-- `F < 1` (R58). -/
  | fractionBits
  /-- `T ∉ {8, 16, 32, 64}` (R58). -/
  | transportWidth
  /-- `1+E+F > T` (R58). -/
  | totalBits
  /-- `W ∉ {32, 64}` (R58). -/
  | nativeWidth
  /-- `MAX_BUFFER_BYTES = 0` (spec/10_state.md R40, P12). DEDUCED, log entry 5. -/
  | bufferCapacity
deriving DecidableEq, Repr

/-! The free values. Each is a constant with no body: nothing in Lean can evaluate it. -/

/-- FREE VALUE (log entry 8): what host conversion `k` answers for the value `(-1)^s · m · 2^x` when that value is
not a native one of width `w` (spec/41_float_codec.md R131, spec/93_implementation_defined.md U5). -/
opaque Config.hostRound (k w : Nat) (s : Bool) (m : Nat) (x : Int) : Bus

/-- FREE VALUE (log entry 9): the sign of quiet NaN `other k`. -/
opaque Config.nanSign (k : Nat) : Bool

/-- FREE VALUE (log entry 9): the fraction bits below the top one of quiet NaN `other k`. -/
opaque Config.nanPayload (k : Nat) : Nat

/-- FREE VALUE (log entry 10): whether the `k`-th reset that arrives during a command lets the command complete
(spec/70_reset_and_hazards.md R174). -/
opaque Config.resetLetsComplete (k : Nat) : Bool

end Sys2Proof
end

