-- ==== Sys2Proof/Syntax.lean ====
section
/-! DEFINITION. The eight commands, one constructor per row of spec/opcode_table.json. Each carries the two free
fields of its word: `dflt` is the `DEF` bit and `ord` the `ENDIAN` field (spec/30_encoding.md R85). Operands are
not part of the word (R92). -/

namespace Sys2Proof

inductive Instr where
  /-- IC.UNPACK, spec/40_integer_codec.md R104. -/
  | icUnpack (dflt : Bool) (ord : Endian)
  /-- IC.PACK, R105. -/
  | icPack (dflt : Bool) (ord : Endian)
  /-- IC.READ, R106. -/
  | icRead (dflt : Bool) (ord : Endian)
  /-- IC.WRITE, R107. -/
  | icWrite (dflt : Bool) (ord : Endian)
  /-- FC.UNPACK, spec/41_float_codec.md R133. -/
  | fcUnpack (dflt : Bool) (ord : Endian)
  /-- FC.PACK, R134. -/
  | fcPack (dflt : Bool) (ord : Endian)
  /-- FC.READ, R135. -/
  | fcRead (dflt : Bool) (ord : Endian)
  /-- FC.WRITE, R136. -/
  | fcWrite (dflt : Bool) (ord : Endian)
deriving DecidableEq, Repr

/-- The `DEF` bit of a command. -/
def Instr.dflt : Instr → Bool
  | .icUnpack d _ => d
  | .icPack d _ => d
  | .icRead d _ => d
  | .icWrite d _ => d
  | .fcUnpack d _ => d
  | .fcPack d _ => d
  | .fcRead d _ => d
  | .fcWrite d _ => d

/-- The `ENDIAN` field of a command. -/
def Instr.ord : Instr → Endian
  | .icUnpack _ e => e
  | .icPack _ e => e
  | .icRead _ e => e
  | .icWrite _ e => e
  | .fcUnpack _ e => e
  | .fcPack _ e => e
  | .fcRead _ e => e
  | .fcWrite _ e => e

end Sys2Proof
end

