-- ==== Sys2Proof/WellFormed.lean ====
section
/-! DEFINITION. Which terms of `Instr` stand for a legal command word. -/

namespace Sys2Proof

/-- The one check a command's fields must pass: a command that takes the default ordering names none, so its
`ENDIAN` field is `00` (spec/30_encoding.md R91). -/
abbrev Instr.WellFormed (i : Instr) : Prop := i.dflt = true → i.ord = .little

end Sys2Proof
end

