-- ==== Sys2Proof/Decode.lean ====
section
/-! DEFINITION. The command decoder, total on all 256 words, and the encoder (spec/30_encoding.md R85 to R96). -/

namespace Sys2Proof

/-- Why a word is no command. -/
inductive Illegal where
  /-- `RES ≠ 00` (spec/30_encoding.md R90). -/
  | reservedBits
  /-- `DEF = 1` with `ENDIAN ≠ 00` (R91). -/
  | orderingWithDefault
deriving DecidableEq, Repr

/-- What the decoder answers. -/
inductive Decoded where
  | command (i : Instr)
  | illegal (why : Illegal)
deriving DecidableEq, Repr

/-- Bits [7:6], `RES` (R85). -/
def resField (w : Byte) : BitVec 2 := w.extractLsb' 6 2

/-- Bit [5], `DEF` (R85). -/
def defField (w : Byte) : Bool := w.getLsbD 5

/-- Bits [4:3], `ENDIAN` (R85). -/
def endianField (w : Byte) : BitVec 2 := w.extractLsb' 3 2

/-- Bit [2], `UNIT` (R85): set for the FC (R87). -/
def unitField (w : Byte) : Bool := w.getLsbD 2

/-- Bits [1:0], `OP` (R85). -/
def opField (w : Byte) : BitVec 2 := w.extractLsb' 0 2

/-- The `ENDIAN` encodings (R88). -/
def endianOfBits (b : BitVec 2) : Endian :=
  if b = 0b00#2 then .little else if b = 0b01#2 then .big else if b = 0b10#2 then .native else .network

/-- The opcode map (R93): `UNIT` and `OP` select the command (R86, R87). -/
def commandOf (fc : Bool) (op : BitVec 2) (dflt : Bool) (ord : Endian) : Instr :=
  if fc then
    if op = 0b00#2 then .fcUnpack dflt ord
    else if op = 0b01#2 then .fcPack dflt ord
    else if op = 0b10#2 then .fcRead dflt ord
    else .fcWrite dflt ord
  else
    if op = 0b00#2 then .icUnpack dflt ord
    else if op = 0b01#2 then .icPack dflt ord
    else if op = 0b10#2 then .icRead dflt ord
    else .icWrite dflt ord

/-- The decoder of spec/30_encoding.md R94. -/
def decode (w : Byte) : Decoded :=
  if resField w ≠ 0b00#2 then .illegal .reservedBits
  else if defField w = true ∧ endianField w ≠ 0b00#2 then .illegal .orderingWithDefault
  else .command (commandOf (unitField w) (opField w) (defField w) (endianOfBits (endianField w)))

/-- The host's view of the decoder: the table's words are single bytes, so the instruction is the low byte. -/
def decodeTableWord (nbits w : Nat) : Option Instr :=
  match decode (BitVec.ofNat 8 (w % 2 ^ nbits)) with
  | .command i => some i
  | .illegal _ => none

/-- R88, the other way. -/
def endianBits : Endian → BitVec 2
  | .little => 0b00#2
  | .big => 0b01#2
  | .native => 0b10#2
  | .network => 0b11#2

/-- The `UNIT` bit and the `OP` field of a command (R86, R87, R93). -/
def unitOpBits : Instr → BitVec 3
  | .icUnpack _ _ => 0b000#3
  | .icPack _ _ => 0b001#3
  | .icRead _ _ => 0b010#3
  | .icWrite _ _ => 0b011#3
  | .fcUnpack _ _ => 0b100#3
  | .fcPack _ _ => 0b101#3
  | .fcRead _ _ => 0b110#3
  | .fcWrite _ _ => 0b111#3

/-- The encoder: the string `0 0 D e e U o o` of R85. -/
def encode (i : Instr) : Byte :=
  0b00#2 ++ BitVec.ofBool i.dflt ++ endianBits i.ord ++ unitOpBits i

end Sys2Proof
end

