-- ==== Sys2Proof/Machine/Derived.lean ====
section
/-! DEFINITION. The derived constants (spec/10_state.md R44 to R56) and elaboration (R57, R58). -/

namespace Sys2Proof

/-! ## The integer codec -/

/-- `data_bytes` (R44). -/
def BitWidthSpec.dataBytes (p : BitWidthSpec) : Nat := (p.n + 7) / 8

/-- `align_bytes` (R45; spec/90_conflicts.md C1). -/
def BitWidthSpec.alignBytes (p : BitWidthSpec) : Nat := if p.aligned then (p.c - p.n) / 8 else 0

/-- `io_bytes` (R46). -/
def BitWidthSpec.ioBytes (p : BitWidthSpec) : Nat := p.dataBytes + p.alignBytes

/-- `value_mask` (R47). -/
def BitWidthSpec.valueMask (p : BitWidthSpec) : BitVec p.c := (1#p.c <<< p.n) - 1#p.c

/-- `sign_mask` (R48). -/
def BitWidthSpec.signMask (p : BitWidthSpec) : Byte := 1#8 <<< ((p.n % 8 + 7) % 8)

/-! ## The float codec -/

/-- The number of bits of a pattern, `1+E+F` (spec/00_scope.md R11). -/
abbrev FloatFmt.width (p : FloatFmt) : Nat := 1 + p.e + p.f

/-- `exponent_mask` (R50). -/
def FloatFmt.exponentMask (p : FloatFmt) : Nat := 2 ^ p.e - 1

/-- `fraction_mask` (R50). -/
def FloatFmt.fractionMask (p : FloatFmt) : Nat := 2 ^ p.f - 1

/-- `exponent_bias` (R51). -/
def FloatFmt.bias (p : FloatFmt) : Nat := 2 ^ (p.e - 1) - 1

/-- `fraction_denominator` (R52). -/
def FloatFmt.den (p : FloatFmt) : Nat := 2 ^ p.f

/-- `exponent_max` (R53). -/
def FloatFmt.exponentMax (p : FloatFmt) : Int := p.bias

/-- `exponent_min` (R53). -/
def FloatFmt.exponentMin (p : FloatFmt) : Int := 1 - p.bias

/-- `min_normalized_exponent` (R54; spec/90_conflicts.md C7). -/
def FloatFmt.minNormalizedExponent (p : FloatFmt) : Int := p.exponentMin - p.f - 1

/-- The transport: an unsigned, unaligned integer codec of `1+E+F` value bits in a T-bit container (R49;
spec/90_conflicts.md C4). Its `io_bytes` is `fc_io_bytes` (R55). -/
def FloatFormatSpec.transport (p : FloatFormatSpec) : BitWidthSpec :=
  ⟨p.t, false, p.toFloatFmt.width, false⟩

/-- The native format of width W: binary32 or binary64 (R56; PRESUMED, log entry 18). -/
def nativeFmt (w : Nat) : FloatFmt := if w = 32 then ⟨8, 23⟩ else ⟨11, 52⟩

/-! ## Elaboration -/

/-- The checks on the BitWidthSpec (R57). -/
def BitWidthSpec.check (p : BitWidthSpec) : Option ElabError :=
  if p.c ∉ [8, 16, 32, 64] then some .containerWidth
  else if p.n < 1 ∨ p.c < p.n then some .valueBits
  else none

/-- The checks on the FloatFormatSpec (R58). -/
def FloatFormatSpec.check (p : FloatFormatSpec) : Option ElabError :=
  if p.e < 1 then some .exponentBits
  else if p.f < 1 then some .fractionBits
  else if p.t ∉ [8, 16, 32, 64] then some .transportWidth
  else if p.t < 1 + p.e + p.f then some .totalBits
  else if p.w ∉ [32, 64] then some .nativeWidth
  else none

/-- The check on `MAX_BUFFER_BYTES`: a positive natural or ∞ (spec/00_scope.md R16; DEDUCED, log entry 5). -/
def CoreConfig.capacityCheck (g : CoreConfig) : Option ElabError :=
  if g.maxBuffer = some 0 then some .bufferCapacity else none

/-- Every check of elaboration on a configuration, in the order of spec/70_reset_and_hazards.md R175: the first
that fails, or `none`. -/
def CoreConfig.check (g : CoreConfig) : Option ElabError :=
  match g.ic.check with
  | some e => some e
  | none =>
    match g.fc.check with
    | some e => some e
    | none => g.capacityCheck

/-- A configuration that elaboration accepts. -/
abbrev CoreConfig.Legal (g : CoreConfig) : Prop := g.check = none

/-- `NATIVE_ENDIAN`, resolved once (spec/70_reset_and_hazards.md R172; spec/10_state.md R43). -/
def NativeSource.resolve : NativeSource → Option ByteOrder
  | .override b => some b
  | .probe b => some b
  | .unset => none
  | .ambiguous => none

/-- Elaboration: the steps of spec/70_reset_and_hazards.md R175 in their order, each check refusing. Which of several
failed checks is named: DESIGN CHOICE, log entry 19. -/
def elaborate (a : ElabArgs) : Except ElabError CoreConfig :=
  match a.nativeSource.resolve, a.defaultEndian with
  | none, _ => .error .nativeEndian
  | some _, none => .error .defaultEndian
  | some native, some dflt =>
    let g : CoreConfig :=
      { ic := ⟨a.c, a.signed, a.n, a.aligned.getD a.defaultAligned⟩
        fc := ⟨⟨a.e, a.f⟩, a.t, a.w⟩
        nativeEndian := native
        defaultEndian := dflt
        defaultAligned := a.defaultAligned
        maxBuffer := a.maxBuffer
        nativeRound := a.nativeRound
        nanBits := a.nanBits }
    match g.check with
    | some e => .error e
    | none => .ok g

end Sys2Proof
end

