-- ==== Sys2Proof/Machine/State.lean ====
section
/-! DEFINITION. The machine's state as plain data: CFG, BUF, SIN, SOUT (spec/10_state.md R30), the ports of R32,
and what stands for the issuer: the inputs it has still to present and its record of the answers (R182). -/

namespace Sys2Proof.Machine

/-- A `STATUS` with the information the spec records for it (spec/60_exceptions.md R150). -/
inductive Status where
  | ok
  | illegalCommand (word : Byte)
  | bufferRange (first window limit : Nat)
  | streamShort (window available : Nat)
  | floatOverflow (value : Bus)
  /-- Code 5, never produced (spec/60_exceptions.md R155). -/
  | invalidState (value : Bus)
deriving DecidableEq, Repr

/-- The `(STATUS, RESULT)` pair of one completed command (spec/70_reset_and_hazards.md R182). -/
structure Completion where
  status : Status
  result : Option Bus
deriving DecidableEq, Repr

/-- What the issuer presents for one command: the word on `CMD` and the operands on the operand ports
(spec/10_state.md R32, spec/30_encoding.md R92). -/
structure Command where
  word : Byte
  offset : Nat
  value : Bus
deriving DecidableEq, Repr

/-- What the outside world does to the block: a command, a reset between commands (spec/10_state.md R59), or a
reset that arrives during a command (spec/70_reset_and_hazards.md R174). Nothing else comes from outside (DESIGN
CHOICE, log entries 14 and 20). -/
inductive Input where
  | command (c : Command)
  | reset
  | resetDuring (c : Command)
deriving DecidableEq, Repr

/-- BUF as the pairs (offset, byte) of every byte it holds. An offset with no pair does not exist (spec/20_memory.md
R60), so no byte ever reads as a value nobody put there (DEDUCED, log entry 7). -/
abbrev Memory := List Host.Cell

/-- The machine's state. A port keeps the value of the last command until the next one (DESIGN CHOICE, log entry 13). -/
structure State where
  /-- CFG (spec/10_state.md R30). -/
  cfg : CoreConfig
  /-- BUF (spec/20_memory.md R60). -/
  buf : Memory
  /-- SIN, consumed from the front (spec/20_memory.md R77). -/
  sin : List Byte
  /-- SOUT, appended to at its end (R77). -/
  sout : List Byte
  /-- The port `CMD` (spec/10_state.md R32). -/
  cmd : Byte
  /-- The port `OFFSET_IN`. -/
  offsetIn : Nat
  /-- The port `VALUE_IN`, on its carrier. -/
  valueIn : Bus
  /-- The port `STATUS`: `none` while it carries no value (spec/10_state.md R59). -/
  status : Option Status
  /-- The port `RESULT`: `none` while it carries no value (R34, R59). -/
  result : Option Bus
  /-- The issuer's: what it has still to present, the next first (spec/20_memory.md R78). -/
  pending : List Input
  /-- The issuer's: the pairs of the commands completed so far, oldest first (spec/70_reset_and_hazards.md R182). -/
  history : List Completion
  /-- The MODEL'S own: how many free choices have been taken, so that each reset during a command takes a fresh
  one (`Config.resetLetsComplete`, log entry 10). -/
  freeIx : Nat
deriving DecidableEq, Repr

/-- Why the machine stops with a fault. The block's own faults (spec/60_exceptions.md R150) are no stops: they are
answered on `STATUS` and the block goes on (R161). -/
inductive Fault where
  /-- Raised by `Machine.withBufWindow` (IC.UNPACK, FC.UNPACK) where BUF has no byte at an offset below its length.
  Only a state whose buffer is not canonical gets here, and no run reaches one. Safe. -/
  | bufferHole (offset : Nat)
deriving DecidableEq, Repr

/-- Why the machine gives an instruction no meaning. -/
inductive Refusal where
  /-- Raised by an arm of `exec` that has no meaning yet. No arm does. Safe. -/
  | notModelled (mnemonic : String)
  /-- Raised by `Machine.onInstance` (every command and every reset) where CFG fails a check of elaboration: such
  an instance does not exist, and no command can run on it (spec/10_state.md R57, R58). Safe. -/
  | elaborationRefused (why : ElabError)
deriving DecidableEq, Repr

/-- The parameters of the instance that `State.reset` describes. The spec leaves every one to the elaborating
system (spec/10_state.md R59): these are the ones of its own programs P1 and P2 (spec/95_test_vectors.md).
DESIGN CHOICE, log entry 1. -/
def resetConfig : CoreConfig where
  ic := ⟨32, true, 24, true⟩
  fc := ⟨⟨5, 10⟩, 16, 32⟩
  nativeEndian := .little
  defaultEndian := .little
  defaultAligned := false
  maxBuffer := none
  nativeRound := .rneOnce
  nanBits := .canonical

/-- The block right after reset: idle, `RESULT` and `STATUS` without a value (spec/10_state.md R59,
spec/70_reset_and_hazards.md R173). BUF, SIN and SOUT are the issuer's to supply: here, empty (log entry 2). The
operand ports carry nothing a command could see: here, zero (log entry 3). -/
def State.reset : State where
  cfg := resetConfig
  buf := []
  sin := []
  sout := []
  cmd := 0
  offsetIn := 0
  valueIn := 0
  status := none
  result := none
  pending := []
  history := []
  freeIx := 0

end Sys2Proof.Machine
end

