-- ==== Sys2Proof/Machine/Ops.lean ====
section
/-! DEFINITION. The named operations the meanings share: BUF, the streams, completing a command, raising a fault,
presenting a command, and reset. -/

namespace Sys2Proof.Machine

abbrev Result := Host.Outcome State Fault Refusal

/-! ## BUF (spec/20_memory.md R60 to R63) -/

/-- `L = len(BUF)` (R60). -/
def Memory.len (m : Memory) : Nat := m.length

/-- The byte at one offset, or `none` where the offset does not exist. -/
def Memory.read : Memory → Nat → Option Byte
  | [], _ => none
  | cell :: rest, a => if cell.1 = a then some cell.2 else Memory.read rest a

/-- `MemRead(addr, n)` (R61), or `none` where one of the bytes does not exist. -/
def Memory.readList (m : Memory) : Nat → Nat → Option (List Byte)
  | _, 0 => some []
  | a, n + 1 =>
    match m.read a, m.readList (a + 1) n with
    | some b, some bs => some (b :: bs)
    | _, _ => none

/-- The cells of a byte list laid down from offset `a` on. -/
def cellsFrom : Nat → List Byte → List Host.Cell
  | _, [] => []
  | a, b :: bs => (a, b) :: cellsFrom (a + 1) bs

/-- `Append(bytes)` (R62): the write offset is the prior length. -/
def Memory.append (m : Memory) (bytes : List Byte) : Memory := m ++ cellsFrom m.len bytes

/-- The buffer that holds exactly these bytes. -/
def Memory.ofBytes (bytes : List Byte) : Memory := cellsFrom 0 bytes

/-- The canonical form: the offsets listed are 0 to L-1, in rising order (R60). An unlisted offset reads as nothing,
so no cell is superfluous, and two buffers with the same bytes are equal. -/
abbrev Memory.wf (m : Memory) : Prop := m.map Prod.fst = List.range m.length

/-! ## The end of a command -/

/-- A command ends with this `STATUS` and this `RESULT` (spec/10_state.md R34, R35), and the issuer records the
pair (spec/70_reset_and_hazards.md R182). -/
def complete (st : Status) (r : Option Bus) (s : State) : State :=
  { s with status := some st, result := r, history := s.history ++ [⟨st, r⟩] }

/-- The command succeeds: `STATUS <- OK`, with `RESULT <- v` for a command that has one (R34). -/
def succeed (r : Option Bus) (s : State) : Result := .next (complete .ok r s)

/-- `raise <Fault>(info)`: the one way a command faults. `STATUS` is the code, `RESULT` carries no value, nothing
else changes, and the block goes on (spec/60_exceptions.md R157, R160, R161; DEDUCED, log entry 11). -/
def raise (st : Status) (s : State) : Result := .next (complete st none s)

/-- No command runs on an instance whose elaboration is refused (spec/10_state.md R57, R58; DEDUCED, log entry 23). -/
def onInstance (s : State) (k : Result) : Result :=
  match s.cfg.check with
  | some why => .refused (.elaborationRefused why)
  | none => k

/-! ## The windows of a command (spec/20_memory.md R71) -/

/-- UNPACK's window of `n` bytes at `OFFSET_IN`, checked whole (spec/20_memory.md R64, R70). An offset at or beyond
the capacity fails the same check (DEDUCED, log entry 15). -/
def withBufWindow (n : Nat) (s : State) (k : List Byte → Result) : Result :=
  if s.offsetIn + n ≤ s.buf.len then
    match s.buf.readList s.offsetIn n with
    | some window => k window
    | none => .fault (.bufferHole s.offsetIn)
  else raise (.bufferRange s.offsetIn n s.buf.len) s

/-- READ's window: `n` bytes consumed from the front of SIN (spec/20_memory.md R77). -/
def withSinWindow (n : Nat) (s : State) (k : List Byte → State → Result) : Result :=
  if n ≤ s.sin.length then k (s.sin.take n) { s with sin := s.sin.drop n }
  else raise (.streamShort n s.sin.length) s

/-- PACK's append at the end of BUF, all of it or nothing (spec/20_memory.md R62, R72, R73). -/
def appendToBuf (bytes : List Byte) (s : State) : Result :=
  match s.cfg.maxBuffer with
  | some limit =>
    if s.buf.len + bytes.length ≤ limit then succeed none { s with buf := s.buf.append bytes }
    else raise (.bufferRange s.buf.len bytes.length limit) s
  | none => succeed none { s with buf := s.buf.append bytes }

/-- WRITE's append to SOUT, which has no bound (spec/20_memory.md R77). -/
def appendToSout (bytes : List Byte) (s : State) : Result := succeed none { s with sout := s.sout ++ bytes }

/-! ## The outside world -/

/-- The issuer presents a command on `CMD` and the operand ports (spec/10_state.md R32, R36). -/
def present (c : Command) (s : State) : State :=
  { s with cmd := c.word, offsetIn := c.offset, valueIn := c.value }

/-- A word that is no command (spec/30_encoding.md R90, R91; spec/60_exceptions.md R151). -/
def illegalCommand (s : State) : Result := onInstance s (raise (.illegalCommand s.cmd) s)

/-- What reset does to a running instance: `RESULT` and `STATUS` carry no value, and nothing else changes
(spec/10_state.md R59, spec/70_reset_and_hazards.md R173). The issuer's record stays (DESIGN CHOICE, log entry 14). -/
def clearOutputs (s : State) : State := { s with status := none, result := none }

/-- A reset between two commands. -/
def resetBlock (s : State) : Result := onInstance s (.next (clearOutputs s))

/-- What a reset leaves of the command it arrived in (spec/70_reset_and_hazards.md R174): all of it, or nothing;
which of the two is a free value (log entry 10), fresh for each such reset. `run` is the command's own run. -/
def resetDuring (s : State) (run : State → Result) : Result :=
  let s' := { s with freeIx := s.freeIx + 1 }
  if Config.resetLetsComplete s.freeIx then
    match run s' with
    | .next t => .next (clearOutputs t)
    | .fault r => .fault r
    | .refused r => .refused r
  else resetBlock s'

/-- The launch state of a run: an instance, and the BUF, SIN and SOUT the issuer supplies
(spec/70_reset_and_hazards.md R173, R175 step 5, R182), with what it will present. -/
def launch (g : CoreConfig) (buf sin sout : List Byte) (inputs : List Input) : State :=
  { State.reset with cfg := g, buf := Memory.ofBytes buf, sin := sin, sout := sout, pending := inputs }

end Sys2Proof.Machine
end

