-- ==== Sys2Proof/Machine/Operands.lean ====
section
/-! DEFINITION. The operands of a command: its effective ordering, the offsets of a window's data bytes, and the
values on the value port. -/

namespace Sys2Proof

/-- `resolve(e)` (spec/20_memory.md R65, spec/00_scope.md R25). -/
def CoreConfig.resolve (g : CoreConfig) : Endian → ByteOrder
  | .little => .little
  | .big => .big
  | .native => g.nativeEndian
  | .network => .big

/-- The effective ordering of a command (spec/30_encoding.md R89), resolved. The traversal is reversed for `big`
(spec/20_memory.md R66). A term that is not well formed takes the default too (DESIGN CHOICE, log entry 17). -/
def CoreConfig.order (g : CoreConfig) (dflt : Bool) (ord : Endian) : ByteOrder :=
  g.resolve (if dflt then g.defaultEndian else ord)

/-- `pos(off, n, i, e)`: the offset of data byte `i` (spec/20_memory.md R67). -/
def pos (off n i : Nat) : ByteOrder → Nat
  | .little => off + i
  | .big => off + n - 1 - i

namespace Machine

/-- `VALUE_IN` as an IC command takes it: C bits (spec/10_state.md R33, spec/30_encoding.md R92). -/
def icValueIn (s : State) : BitVec s.cfg.ic.c := s.valueIn.setWidth s.cfg.ic.c

/-- `VALUE_IN` as an FC command takes it: a native pattern of W bits (spec/10_state.md R33). -/
def fcValueIn (s : State) : BitVec (nativeFmt s.cfg.fc.w).width := s.valueIn.setWidth (nativeFmt s.cfg.fc.w).width

end Machine

end Sys2Proof
end

