-- ==== Sys2Proof/Machine/IntegerCodec.lean ====
section
/-! DEFINITION. The integer codec: the helper functions of spec/40_integer_codec.md, which the FC's transport uses
too, and the four IC commands. -/

namespace Sys2Proof

/-- `IC_Assemble(w, e)` over data bytes 0 to k-1 (R100). -/
def icAssembleFirst (p : BitWidthSpec) (w : List Byte) (b : ByteOrder) : Nat → BitVec p.c
  | 0 => 0#p.c
  | i + 1 => icAssembleFirst p w b i ||| ((w.getD (pos 0 p.ioBytes i b) 0).setWidth p.c <<< (8 * i))

/-- `IC_Assemble(w, e)` (R100). The window has `io_bytes` bytes, and every `pos` is inside it. -/
def icAssemble (p : BitWidthSpec) (w : List Byte) (b : ByteOrder) : BitVec p.c :=
  icAssembleFirst p w b p.dataBytes

/-- `IC_Mask(v)` (R101). -/
def icMask (p : BitWidthSpec) (v : BitVec p.c) : BitVec p.c := v &&& p.valueMask

/-- The sign probe: `sign_mask` against data byte d-1 (R102; spec/90_conflicts.md C3). -/
def icSignProbe (p : BitWidthSpec) (w : List Byte) (b : ByteOrder) : Bool :=
  w.getD (pos 0 p.ioBytes (p.dataBytes - 1) b) 0 &&& p.signMask != 0

/-- `IC_SignExtend(w, e, v)` (R102). -/
def icSignExtend (p : BitWidthSpec) (w : List Byte) (b : ByteOrder) (v : BitVec p.c) : BitVec p.c :=
  if p.signed ∧ p.n < p.c then
    if icSignProbe p w b then v ||| ~~~p.valueMask else v
  else v

/-- `IC_Decode(w, e)` (R116). -/
def icDecode (p : BitWidthSpec) (w : List Byte) (b : ByteOrder) : BitVec p.c :=
  icSignExtend p w b (icMask p (icAssemble p w b))

/-- `IC_Encode(x, e)` with data bytes 0 to k-1 written into the zero window (R103). -/
def icEncodeFirst (p : BitWidthSpec) (m : BitVec p.c) (b : ByteOrder) : Nat → List Byte
  | 0 => List.replicate p.ioBytes 0
  | i + 1 => (icEncodeFirst p m b i).set (pos 0 p.ioBytes i b) ((m >>> (8 * i)).setWidth 8)

/-- `IC_Encode(x, e)` (R103). -/
def icEncode (p : BitWidthSpec) (x : BitVec p.c) (b : ByteOrder) : List Byte :=
  icEncodeFirst p (icMask p x) b p.dataBytes

namespace Machine

/-- The window of an IC command becomes its `RESULT`, zero-extended onto the carrier. -/
def icResult (s : State) (dflt : Bool) (ord : Endian) (window : List Byte) : Option Bus :=
  some ((icDecode s.cfg.ic window (s.cfg.order dflt ord)).setWidth 64)

/-- The bytes an IC command writes. -/
def icBytes (s : State) (dflt : Bool) (ord : Endian) : List Byte :=
  icEncode s.cfg.ic (icValueIn s) (s.cfg.order dflt ord)

/-- IC.UNPACK (R104). -/
def execIcUnpack (dflt : Bool) (ord : Endian) (s : State) : Result :=
  onInstance s (withBufWindow s.cfg.ic.ioBytes s fun window => succeed (icResult s dflt ord window) s)

/-- IC.PACK (R105). -/
def execIcPack (dflt : Bool) (ord : Endian) (s : State) : Result :=
  onInstance s (appendToBuf (icBytes s dflt ord) s)

/-- IC.READ (R106). -/
def execIcRead (dflt : Bool) (ord : Endian) (s : State) : Result :=
  onInstance s (withSinWindow s.cfg.ic.ioBytes s fun window s' => succeed (icResult s dflt ord window) s')

/-- IC.WRITE (R107). -/
def execIcWrite (dflt : Bool) (ord : Endian) (s : State) : Result :=
  onInstance s (appendToSout (icBytes s dflt ord) s)

end Machine

end Sys2Proof
end

