-- ==== Sys2Proof/Machine/FloatCodec.lean ====
section
/-! DEFINITION. The float codec: the helper functions of spec/41_float_codec.md and the four FC commands. Every
magnitude the FC handles is a natural times a power of two, and it is kept so: the rationals of the spec
(spec/00_scope.md R21, R26), exactly. -/

namespace Sys2Proof

/-- The abstract values (spec/00_scope.md R26): `fin s m x` is `Fin(s, m · 2^x)`, with `s` set for
negative (DEDUCED, log entry 16). -/
inductive FloatVal where
  | nan
  | inf (s : Bool)
  | fin (s : Bool) (m : Nat) (x : Int)
deriving DecidableEq, Repr

/-- What `FloatEncode` answers: a pattern, or `FLOAT_OVERFLOW`. (`INVALID_STATE` cannot arise: R130,
log entry 22.) -/
inductive Encoded (n : Nat) where
  | pattern (raw : BitVec n)
  | overflow
deriving DecidableEq, Repr

/-! ## Decoding a bit pattern -/

/-- `fraction_numerator` (R120). -/
def fractionField (p : FloatFmt) (raw : BitVec p.width) : Nat :=
  (raw &&& BitVec.ofNat p.width p.fractionMask).toNat

/-- `exponent` (R120). -/
def exponentField (p : FloatFmt) (raw : BitVec p.width) : Nat :=
  ((raw >>> p.f) &&& BitVec.ofNat p.width p.exponentMask).toNat

/-- `sign` (R120). -/
def signField (p : FloatFmt) (raw : BitVec p.width) : Bool := raw.getLsbD (p.f + p.e)

/-- `FloatDecode(raw)` (R121, R122). The formula of R122 is
`2^(exponent - bias + 1 - denorm_adjust) · (denorm_adjust + fraction_numerator / den)`; here `den` is moved into
the power of two. -/
def floatDecode (p : FloatFmt) (raw : BitVec p.width) : FloatVal :=
  let s := signField p raw
  let ex := exponentField p raw
  let fr := fractionField p raw
  if ex = p.exponentMask then
    if fr = 0 then .inf s else .nan
  else
    let adjust : Nat := if ex = 0 then 0 else 1
    .fin s (adjust * p.den + fr) ((ex : Int) - p.bias + 1 - adjust - p.f)

/-! ## Encoding a value -/

/-- The concatenation `{s, ex, num}` (R125, R129). -/
def assembleFloat (p : FloatFmt) (s : Bool) (ex num : Nat) : BitVec p.width :=
  ((BitVec.ofBool s).setWidth p.width <<< (p.e + p.f))
    ||| (BitVec.ofNat p.width (ex &&& p.exponentMask) <<< p.f)
    ||| BitVec.ofNat p.width (num &&& p.fractionMask)

/-- A non-negative rational as its floor and the remainder `rem / unit`. -/
structure Scaled where
  floor : Nat
  rem : Nat
  unit : Nat
deriving DecidableEq, Repr

/-- `m · 2^j` as a floor and a remainder. -/
def scaleBy (m : Nat) : Int → Scaled
  | .ofNat k => ⟨m * 2 ^ k, 0, 1⟩
  | .negSucc k => ⟨m / 2 ^ (k + 1), m % 2 ^ (k + 1), 2 ^ (k + 1)⟩

/-- Round to nearest, a tie to even (R128). -/
def roundEven (t : Scaled) : Nat :=
  if t.unit < 2 * t.rem ∨ (2 * t.rem = t.unit ∧ t.floor % 2 = 1) then t.floor + 1 else t.floor

/-- `x` with `2^x ≤ q < 2^(x+1)`, for `q = m · 2^j > 0` (R126). -/
def binaryExponent (m : Nat) (j : Int) : Int := (Nat.log2 m : Int) + j

/-- The stored exponent before rounding (R127, second and third case). -/
def storedExponent (p : FloatFmt) (x : Int) : Nat := if x < p.exponentMin then 0 else (x + p.bias).toNat

/-- `t = frac · den` for `q = m · 2^j` of binary exponent `x` (R127, R128): `frac` is `q / 2^exponent_min` for a
subnormal, and `q / 2^x - 1` for a normal value. -/
def scaledFraction (p : FloatFmt) (m : Nat) (j x : Int) : Scaled :=
  if x < p.exponentMin then scaleBy m (j - p.exponentMin + p.f)
  else
    let t := scaleBy m (j - x + p.f)
    { t with floor := t.floor - p.den }

/-- Steps 4 and 5 (R128, R129), from the rounded numerator and the stored exponent. -/
def carryAndAssemble (p : FloatFmt) (s : Bool) (ex num : Nat) : Encoded p.width :=
  if num = p.den then
    if p.exponentMask ≤ ex + 1 then .overflow else .pattern (assembleFloat p s (ex + 1) 0)
  else .pattern (assembleFloat p s ex num)

/-- `FloatEncode(val)`, in the order of the complete pseudocode (R134; R125 to R129). -/
def floatEncode (p : FloatFmt) : FloatVal → Encoded p.width
  | .nan => .pattern (assembleFloat p false p.exponentMask (2 ^ (p.f - 1)))
  | .inf s => .pattern (assembleFloat p s p.exponentMask 0)
  | .fin s m j =>
    if m = 0 then .pattern (assembleFloat p s 0 0)
    else
      let x := binaryExponent m j
      if p.exponentMax < x then .overflow
      else if x < p.minNormalizedExponent then .pattern (assembleFloat p s 0 0)
      else carryAndAssemble p s (storedExponent p x) (roundEven (scaledFraction p m j x))

/-! ## The native format -/

/-- `m · 2^j` is a finite value of the format: zero, or in its range with nothing left over by R128. -/
def isExact (p : FloatFmt) (m : Nat) (j : Int) : Bool :=
  let x := binaryExponent m j
  m == 0 || (decide (p.minNormalizedExponent ≤ x) && (decide (x ≤ p.exponentMax)
    && (scaledFraction p m j x).rem == 0))

/-- The spec's default `NATIVE_ROUND` (R131): one round-to-nearest-even, overflow to ±∞. -/
def nativeRne (p : FloatFmt) (s : Bool) (m : Nat) (j : Int) : BitVec p.width :=
  match floatEncode p (.fin s m j) with
  | .pattern raw => raw
  | .overflow => assembleFloat p s p.exponentMask 0

/-- `NATIVE_ROUND(s, q)` to width W (R131): exact where the value is native; otherwise the default, or the free value
of another host conversion (spec/93_implementation_defined.md U5; log entry 8). -/
def nativeRound (nr : NativeRound) (w : Nat) (s : Bool) (m : Nat) (j : Int) : BitVec (nativeFmt w).width :=
  match nr with
  | .rneOnce => nativeRne (nativeFmt w) s m j
  | .host k =>
    if isExact (nativeFmt w) m j then nativeRne (nativeFmt w) s m j
    else (Config.hostRound k w s m j).setWidth (nativeFmt w).width

/-- `QNAN_W` (R132), or another quiet NaN (spec/93_implementation_defined.md U4; log entry 9). -/
def quietNaN (nb : NanBits) (p : FloatFmt) : BitVec p.width :=
  match nb with
  | .canonical => assembleFloat p false p.exponentMask (2 ^ (p.f - 1))
  | .other k =>
    assembleFloat p (Config.nanSign k) p.exponentMask (2 ^ (p.f - 1) + Config.nanPayload k % 2 ^ (p.f - 1))

/-- `NativeEncode(val)` (R131). -/
def nativeEncode (nr : NativeRound) (nb : NanBits) (w : Nat) : FloatVal → BitVec (nativeFmt w).width
  | .nan => quietNaN nb (nativeFmt w)
  | .inf s => assembleFloat (nativeFmt w) s (nativeFmt w).exponentMask 0
  | .fin s m j => nativeRound nr w s m j

/-- `NativeDecode(x)` (R124). -/
def nativeDecode (w : Nat) (x : BitVec (nativeFmt w).width) : FloatVal := floatDecode (nativeFmt w) x

/-! ## The transport -/

/-- The raw pattern of a window: the transport's unpack, bits [E+F:0] (R133, R143). -/
def fcRawOfWindow (p : FloatFormatSpec) (w : List Byte) (b : ByteOrder) : BitVec p.toFloatFmt.width :=
  (icDecode p.transport w b).setWidth p.toFloatFmt.width

/-- The window of a raw pattern: the transport's pack of `zext_T(raw)` (R134, R143). -/
def fcWindowOfRaw (p : FloatFormatSpec) (raw : BitVec p.toFloatFmt.width) (b : ByteOrder) : List Byte :=
  icEncode p.transport (raw.setWidth p.transport.c) b

namespace Machine

/-- The window of an FC command becomes its `RESULT`, zero-extended onto the carrier (R133). -/
def fcResult (s : State) (dflt : Bool) (ord : Endian) (window : List Byte) : Option Bus :=
  let val := floatDecode s.cfg.fc.toFloatFmt (fcRawOfWindow s.cfg.fc window (s.cfg.order dflt ord))
  some ((nativeEncode s.cfg.nativeRound s.cfg.nanBits s.cfg.fc.w val).setWidth 64)

/-- The pattern an FC command makes of `VALUE_IN` (R134). -/
def fcEncoded (s : State) : Encoded s.cfg.fc.toFloatFmt.width :=
  floatEncode s.cfg.fc.toFloatFmt (nativeDecode s.cfg.fc.w (fcValueIn s))

/-- FC.PACK and FC.WRITE make the pattern first, and the window only from a pattern: a value fault comes before any
range fault (spec/60_exceptions.md R158). -/
def withFcBytes (s : State) (dflt : Bool) (ord : Endian) (k : List Byte → Result) : Result :=
  match fcEncoded s with
  | .pattern raw => k (fcWindowOfRaw s.cfg.fc raw (s.cfg.order dflt ord))
  | .overflow => raise (.floatOverflow ((fcValueIn s).setWidth 64)) s

/-- FC.UNPACK (R133). -/
def execFcUnpack (dflt : Bool) (ord : Endian) (s : State) : Result :=
  onInstance s (withBufWindow s.cfg.fc.transport.ioBytes s fun window => succeed (fcResult s dflt ord window) s)

/-- FC.PACK (R134). -/
def execFcPack (dflt : Bool) (ord : Endian) (s : State) : Result :=
  onInstance s (withFcBytes s dflt ord fun bytes => appendToBuf bytes s)

/-- FC.READ (R135). -/
def execFcRead (dflt : Bool) (ord : Endian) (s : State) : Result :=
  onInstance s (withSinWindow s.cfg.fc.transport.ioBytes s fun window s' => succeed (fcResult s dflt ord window) s')

/-- FC.WRITE (R136). -/
def execFcWrite (dflt : Bool) (ord : Endian) (s : State) : Result :=
  onInstance s (withFcBytes s dflt ord fun bytes => appendToSout bytes s)

end Machine

end Sys2Proof
end

