-- ==== Sys2Proof/Machine/Dispatch.lean ====
section
/-! DEFINITION. The dispatch: one arm per command. -/

namespace Sys2Proof.Machine

def exec (i : Instr) (s : State) : Host.Outcome State Fault Refusal :=
  match i with
  | .icUnpack dflt ord => Sys2Proof.Machine.execIcUnpack dflt ord s
  | .icPack dflt ord => Sys2Proof.Machine.execIcPack dflt ord s
  | .icRead dflt ord => Sys2Proof.Machine.execIcRead dflt ord s
  | .icWrite dflt ord => Sys2Proof.Machine.execIcWrite dflt ord s
  | .fcUnpack dflt ord => Sys2Proof.Machine.execFcUnpack dflt ord s
  | .fcPack dflt ord => Sys2Proof.Machine.execFcPack dflt ord s
  | .fcRead dflt ord => Sys2Proof.Machine.execFcRead dflt ord s
  | .fcWrite dflt ord => Sys2Proof.Machine.execFcWrite dflt ord s

end Sys2Proof.Machine
end

