-- ==== Sys2Proof/Machine/Step.lean ====
section
/-! DEFINITION. One step of the machine: the next thing the issuer presents, performed whole (spec/20_memory.md R73,
R78). The block fetches nothing and has no program counter (spec/10_state.md R36, spec/20_memory.md R81). -/

namespace Sys2Proof.Machine

/-- One command, from the word on `CMD` to its end (spec/30_encoding.md R94; spec/60_exceptions.md R158, check 1). -/
def perform (c : Command) (s : State) : Host.Outcome State Fault Refusal :=
  match decode (present c s).cmd with
  | .command i => exec i (present c s)
  | .illegal _ => illegalCommand (present c s)

/-- One step. With nothing presented the block is idle and holds what it holds (spec/60_exceptions.md R169; DESIGN
CHOICE, log entry 12). -/
def step (s : State) : Host.Outcome State Fault Refusal :=
  match s.pending with
  | [] => .next s
  | .command c :: rest => perform c { s with pending := rest }
  | .reset :: rest => resetBlock { s with pending := rest }
  | .resetDuring c :: rest => resetDuring { s with pending := rest } (perform c)

/-- `s` with the issuer about to present this word, the operand ports as they are (log entry 6). -/
def State.withFetchWord (s : State) (nbits w : Nat) : State :=
  { s with pending := .command ⟨BitVec.ofNat 8 (w % 2 ^ nbits), s.offsetIn, s.valueIn⟩ :: s.pending }

end Sys2Proof.Machine
end

