-- ==== Sys2Proof/Machine/Flags.lean ====
section
/-! DEFINITION. The block has no flags or condition codes (spec/10_state.md R37, spec/41_float_codec.md R140): what a
command reports is its `STATUS` code. -/

namespace Sys2Proof.Machine

/-- The 8-bit `STATUS` code (spec/60_exceptions.md R150). -/
def Status.code : Status → Byte
  | .ok => 0
  | .illegalCommand _ => 1
  | .bufferRange _ _ _ => 2
  | .streamShort _ _ => 3
  | .floatOverflow _ => 4
  | .invalidState _ => 5

end Sys2Proof.Machine
end

