-- ==== Sys2Proof/Safety.lean ====
section
/-! DEFINITION. The terms claims use: the invariant of the machine, a clean run, what a run shows its issuer, and the
rational numbers the FC's values stand for. -/

namespace Sys2Proof

namespace Machine

/-- An instance that elaboration accepted, with a canonical buffer: what a command needs to run. -/
abbrev State.Ready (s : State) : Prop := s.cfg.Legal ∧ s.buf.wf

/-- `L ≤ MAX_BUFFER_BYTES` (spec/20_memory.md R60). -/
abbrev State.WithinCapacity (s : State) : Prop := ∀ limit ∈ s.cfg.maxBuffer, s.buf.len ≤ limit

/-- The output ports show the last command of the record, or carry no value (spec/10_state.md R34, R59). -/
abbrev State.PortsAgree (s : State) : Prop :=
  (s.status = none ∧ s.result = none) ∨ ∃ st ∈ s.status, s.history.getLast? = some ⟨st, s.result⟩

/-- A pair the block can answer: a `RESULT` comes only with OK (spec/10_state.md R34), and `INVALID_STATE` is never
produced (spec/60_exceptions.md R155). -/
abbrev Completion.Possible (c : Completion) : Prop :=
  (c.status = .ok ∨ c.result = none) ∧ c.status.code ≠ 5

/-- What every state of a run satisfies. -/
structure State.Inv (s : State) : Prop where
  legal : s.cfg.Legal
  canonical : s.buf.wf
  capacity : s.WithinCapacity
  ports : s.PortsAgree
  record : ∀ c ∈ s.history, c.Possible

/-- A clean run so far: every command ended OK. A run with any other `STATUS` counts as a fault outcome, never as
success (spec/92_eei_decisions.md D16). -/
abbrev State.Clean (s : State) : Prop := ∀ c ∈ s.history, c.status.code = 0

/-- What a run shows its issuer at its end (spec/70_reset_and_hazards.md R182). -/
structure Observation where
  buf : List Byte
  sin : List Byte
  sout : List Byte
  answers : List Completion
deriving DecidableEq, Repr

/-- The observation of a state. -/
def State.observe (s : State) : Observation := ⟨s.buf.map Prod.snd, s.sin, s.sout, s.history⟩

end Machine

/-! ## The numbers behind the FC's values -/

/-- The rational `m · 2^j` (spec/00_scope.md R26). -/
def magnitude (m : Nat) (j : Int) : ℚ := (m : ℚ) * (2 : ℚ) ^ j

/-- `val` is the finite value of sign `s` and magnitude `q`. -/
def FloatVal.IsFin (val : FloatVal) (s : Bool) (q : ℚ) : Prop := ∃ m j, val = .fin s m j ∧ magnitude m j = q

/-- `q` is the magnitude of a finite value of the format. -/
def FloatFmt.Holds (p : FloatFmt) (q : ℚ) : Prop := ∃ raw s, (floatDecode p raw).IsFin s q

/-- The bounds elaboration puts on a float format (spec/10_state.md R58). -/
abbrev FloatFmt.Ok (p : FloatFmt) : Prop := 1 ≤ p.e ∧ 1 ≤ p.f

end Sys2Proof
end

