-- ==== Sys2Proof/Certificates/Slice0/Obligations.lean ====
section
/-! DEFINITION. The statements for the provers. Each formalises what the spec says the block does; each docstring
names the rule, and says so where a clause rests on a choice of the model. -/

open Sys2Proof Sys2Proof.Machine

/-! ## The command word -/

/-- R93: the eight rows of the opcode table, each with exactly its five words and their orderings. -/
def Obligations.TableWordsDecode : Prop :=
  ∀ row ∈ [(0x00#8, Instr.icUnpack), (0x01#8, Instr.icPack), (0x02#8, Instr.icRead), (0x03#8, Instr.icWrite),
      (0x04#8, Instr.fcUnpack), (0x05#8, Instr.fcPack), (0x06#8, Instr.fcRead), (0x07#8, Instr.fcWrite)],
    (decode row.1 = .command (row.2 false .little) ∧ decode (row.1 ||| 0x08#8) = .command (row.2 false .big)
      ∧ decode (row.1 ||| 0x10#8) = .command (row.2 false .native)
      ∧ decode (row.1 ||| 0x18#8) = .command (row.2 false .network)
      ∧ decode (row.1 ||| 0x20#8) = .command (row.2 true .little))
    ∧ ∀ w d o, decode w = .command (row.2 d o) →
        w &&& 0xC7#8 = row.1
          ∧ w ∈ [row.1, row.1 ||| 0x08#8, row.1 ||| 0x10#8, row.1 ||| 0x18#8, row.1 ||| 0x20#8]

/-- R85, R94, R99: the word of a well-formed command decodes to it. -/
def Obligations.DecodeInvertsEncode : Prop := ∀ i : Instr, i.WellFormed → decode (encode i) = .command i

/-- R91, R94: a word that decodes is the one word of its meaning, and its meaning is well formed. -/
def Obligations.EveryMeaningHasOneWord : Prop :=
  ∀ (w : Byte) (i : Instr), decode w = .command i → encode i = w ∧ i.WellFormed

/-- R90: a word with `RES ≠ 00` raises ILLEGAL_COMMAND(word) and has no other effect. -/
def Obligations.ReservedBitsRaiseIllegalCommand : Prop :=
  ∀ (s : State) (c : Command) (rest : List Input), s.cfg.Legal → s.pending = .command c :: rest →
    c.word.extractLsb' 6 2 ≠ 0b00#2 →
    step s = .next { s with
      pending := rest, cmd := c.word, offsetIn := c.offset, valueIn := c.value
      status := some (.illegalCommand c.word), result := none
      history := s.history ++ [⟨.illegalCommand c.word, none⟩] }

/-- R91: a word with `DEF = 1` and `ENDIAN ≠ 00` raises ILLEGAL_COMMAND(word) and has no other effect; so no two
legal words have one meaning. -/
def Obligations.OrderingWithDefaultRaisesIllegalCommand : Prop :=
  (∀ (s : State) (c : Command) (rest : List Input), s.cfg.Legal → s.pending = .command c :: rest →
    c.word.getLsbD 5 = true → c.word.extractLsb' 3 2 ≠ 0b00#2 →
    step s = .next { s with
      pending := rest, cmd := c.word, offsetIn := c.offset, valueIn := c.value
      status := some (.illegalCommand c.word), result := none
      history := s.history ++ [⟨.illegalCommand c.word, none⟩] })
  ∧ ∀ (w w' : Byte) (i : Instr), decode w = .command i → decode w' = .command i → w = w'

/-- R65, R89: the effective ordering of a command, resolved. -/
def Obligations.EffectiveOrderingResolves : Prop :=
  ∀ (g : CoreConfig) (o : Endian),
    g.order true o = g.resolve g.defaultEndian ∧ g.order false o = g.resolve o
      ∧ g.resolve .little = .little ∧ g.resolve .big = .big ∧ g.resolve .native = g.nativeEndian
      ∧ g.resolve .network = .big

/-! ## Steps, reset and elaboration -/

/-- R36, R78, R94: when the issuer's next word decodes, the step is that command, run with the word and its operands
on the ports. -/
def Obligations.StepRunsTheDecodedCommand : Prop :=
  ∀ (s : State) (c : Command) (rest : List Input) (i : Instr), s.pending = .command c :: rest →
    decode c.word = .command i →
    step s = exec i { s with pending := rest, cmd := c.word, offsetIn := c.offset, valueIn := c.value }

/-- R59, R173: a reset between commands leaves RESULT and STATUS without a value and touches nothing else. -/
def Obligations.ResetClearsOnlyTheOutputs : Prop :=
  ∀ (s : State) (rest : List Input), s.cfg.Legal → s.pending = .reset :: rest →
    step s = .next { s with pending := rest, status := none, result := none }

/-- R174: a reset during a command lets it complete with all its effects or cancels it with none; either way the
outputs carry no value after. Which of the two is a free value (log entry 10). -/
def Obligations.ResetDuringCommandIsAllOrNothing : Prop :=
  ∀ (s : State) (c : Command) (rest : List Input), s.Ready → s.pending = .resetDuring c :: rest →
    ∃ t, perform c { s with pending := rest, freeIx := s.freeIx + 1 } = .next t
      ∧ (step s = .next { t with status := none, result := none }
        ∨ step s = .next
            { s with pending := rest, freeIx := s.freeIx + 1, status := none, result := none })

/-- What elaboration accepts has passed the checks of R57 and R58 and is what it was given, and no command runs on a
configuration that fails a check. The first clause speaks of the spec's own checks. The second is the model's: that
exec answers such a configuration with a named refusal is log entry 23, that MAX_BUFFER_BYTES = 0 is among the checks
is log entry 5, and which of several failed checks is named is log entry 19. -/
def Obligations.ElaborationRefusedUnlessLegal : Prop :=
  (∀ (a : ElabArgs) (g : CoreConfig), elaborate a = .ok g →
    g.ic.c ∈ [8, 16, 32, 64] ∧ 1 ≤ g.ic.n ∧ g.ic.n ≤ g.ic.c
      ∧ 1 ≤ g.fc.e ∧ 1 ≤ g.fc.f ∧ g.fc.t ∈ [8, 16, 32, 64] ∧ 1 + g.fc.e + g.fc.f ≤ g.fc.t ∧ g.fc.w ∈ [32, 64]
      ∧ (a.nativeSource = .override g.nativeEndian ∨ a.nativeSource = .probe g.nativeEndian)
      ∧ a.defaultEndian = some g.defaultEndian
      ∧ (g.ic.c = a.c ∧ g.ic.n = a.n ∧ g.fc.e = a.e ∧ g.fc.f = a.f ∧ g.fc.t = a.t ∧ g.fc.w = a.w))
  ∧ ∀ (s : State) (i : Instr) (why : ElabError), s.cfg.check = some why →
    exec i s = .refused (.elaborationRefused why)

/-- R175, R10: legal parameters are accepted and every one is kept, with ALIGNED taken from DEFAULT_ALIGNED when it is
omitted. The premise on MAX_BUFFER_BYTES is the model's (log entry 5). -/
def Obligations.ElaborationAcceptsLegalParameters : Prop :=
  ∀ (a : ElabArgs) (b : ByteOrder) (e : Endian), a.nativeSource = .override b ∨ a.nativeSource = .probe b →
    a.defaultEndian = some e → a.c ∈ [8, 16, 32, 64] → 1 ≤ a.n → a.n ≤ a.c → 1 ≤ a.e → 1 ≤ a.f →
    a.t ∈ [8, 16, 32, 64] → 1 + a.e + a.f ≤ a.t → a.w ∈ [32, 64] → a.maxBuffer ≠ some 0 →
    ∃ g, elaborate a = .ok g ∧ g.Legal ∧ g.nativeEndian = b ∧ g.defaultEndian = e ∧ g.ic.signed = a.signed
      ∧ (g.ic.aligned = match a.aligned with | some x => x | none => a.defaultAligned)
      ∧ (g.ic.c = a.c ∧ g.ic.n = a.n ∧ g.fc.e = a.e ∧ g.fc.f = a.f ∧ g.fc.t = a.t ∧ g.fc.w = a.w)
      ∧ (g.defaultAligned = a.defaultAligned ∧ g.maxBuffer = a.maxBuffer ∧ g.nativeRound = a.nativeRound
        ∧ g.nanBits = a.nanBits)

/-! ## The invariant, and what no step does -/

/-- R59, R173: the state after reset satisfies the invariant and is idle, with no output. Its configuration is the
model's choice (log entry 1). -/
def Obligations.ResetSatisfiesInvariant : Prop :=
  State.reset.Inv ∧ State.reset.pending = [] ∧ State.reset.status = none ∧ State.reset.result = none

/-- R173, R182: so does every launch state of a legal instance whose buffer fits, and it shows what the issuer
supplied. -/
def Obligations.LaunchSatisfiesInvariant : Prop :=
  ∀ (g : CoreConfig) (buf sin sout : List Byte) (inputs : List Input), g.Legal →
    (∀ limit ∈ g.maxBuffer, buf.length ≤ limit) →
    (launch g buf sin sout inputs).Inv ∧ (launch g buf sin sout inputs).observe = ⟨buf, sin, sout, []⟩
      ∧ (launch g buf sin sout inputs).status = none ∧ (launch g buf sin sout inputs).result = none

/-- R30, R34, R60, R155: every step keeps the invariant: the configuration legal, BUF canonical and within its
capacity, the output ports equal to the last recorded pair, no RESULT beside a fault, no INVALID_STATE. -/
def Obligations.StepKeepsInvariant : Prop := ∀ s t : State, s.Inv → step s = .next t → t.Inv

/-- R180, R181: every command completes: from a state of the invariant a step neither faults nor is refused. -/
def Obligations.StepAlwaysAnswersNext : Prop := ∀ s : State, s.Inv → ∃ t, step s = .next t

/-- R41, R179: no step writes a configuration field. -/
def Obligations.ConfigurationNeverChanges : Prop := ∀ s t : State, step s = .next t → t.cfg = s.cfg

/-- R63: no step writes a byte of BUF that existed before; bytes are only ever appended. -/
def Obligations.BufferBytesAreNeverOverwritten : Prop :=
  ∀ s t : State, step s = .next t →
    (∃ bytes, t.buf = s.buf.append bytes) ∧ ∀ a b, s.buf.read a = some b → t.buf.read a = some b

/-- R77: SIN is only consumed from the front, and SOUT only appended to. -/
def Obligations.StreamsOnlyConsumedAndAppended : Prop :=
  ∀ s t : State, step s = .next t → (∃ n, t.sin = s.sin.drop n) ∧ ∃ bytes, t.sout = s.sout ++ bytes

/-- R157: a command that raises a fault sets STATUS, leaves RESULT without a value, and changes nothing else (the
issuer's record gains the pair): for every decoded command, and for every word the issuer can present. -/
def Obligations.FaultedCommandHasNoEffect : Prop :=
  (∀ (i : Instr) (s t : State) (st : Status), exec i s = .next t → t.status = some st → st.code ≠ 0 →
    t = { s with status := some st, result := none, history := s.history ++ [⟨st, none⟩] })
  ∧ ∀ (c : Command) (s t : State) (st : Status), perform c s = .next t → t.status = some st → st.code ≠ 0 →
    t = { s with
      cmd := c.word, offsetIn := c.offset, valueIn := c.value
      status := some st, result := none, history := s.history ++ [⟨st, none⟩] }

/-- R34: RESULT is driven exactly by an UNPACK or a READ that ends OK; it has C bits for the IC and W bits for the
FC. No illegal word drives it. -/
def Obligations.ResultOnlyFromSuccessfulReads : Prop :=
  ∀ (i : Instr) (s t : State), exec i s = .next t →
    (t.result.isSome ↔ t.status = some .ok
      ∧ ∃ d o, i = .icUnpack d o ∨ i = .icRead d o ∨ i = .fcUnpack d o ∨ i = .fcRead d o)
    ∧ (∀ d o v, i = .icUnpack d o ∨ i = .icRead d o → t.result = some v → v.toNat < 2 ^ s.cfg.ic.c)
    ∧ (∀ d o v, i = .fcUnpack d o ∨ i = .fcRead d o → t.result = some v → v.toNat < 2 ^ s.cfg.fc.w)
    ∧ ∀ (c : Command) (why : Illegal) (u : State), decode c.word = .illegal why → perform c s = .next u →
      u.result = none

/-- R155, R150: the codes each command can answer; INVALID_STATE is never among them. -/
def Obligations.StatusCodesByCommand : Prop :=
  ∀ (s t : State) (d : Bool) (o : Endian) (st : Status), t.status = some st →
    (exec (.icUnpack d o) s = .next t → st.code ∈ [0#8, 2#8]) ∧ (exec (.icPack d o) s = .next t → st.code ∈ [0#8, 2#8])
    ∧ (exec (.icRead d o) s = .next t → st.code ∈ [0#8, 3#8]) ∧ (exec (.icWrite d o) s = .next t → st.code = 0#8)
    ∧ (exec (.fcUnpack d o) s = .next t → st.code ∈ [0#8, 2#8])
    ∧ (exec (.fcPack d o) s = .next t → st.code ∈ [0#8, 2#8, 4#8])
    ∧ (exec (.fcRead d o) s = .next t → st.code ∈ [0#8, 3#8])
    ∧ (exec (.fcWrite d o) s = .next t → st.code ∈ [0#8, 4#8])

/-- The frame of all eight commands: CFG, the input ports and the issuer's queue are unchanged; BUF is unchanged, byte
by byte, by all but the PACKs, SIN by all but the READs, SOUT by all but the WRITEs (R63, R74, R77). -/
def Obligations.CommandFrame : Prop :=
  ∀ (i : Instr) (s t : State), exec i s = .next t →
    (t.cfg = s.cfg ∧ t.cmd = s.cmd ∧ t.offsetIn = s.offsetIn ∧ t.valueIn = s.valueIn ∧ t.pending = s.pending
      ∧ t.freeIx = s.freeIx)
    ∧ ((∀ d o, i ≠ .icPack d o ∧ i ≠ .fcPack d o) → t.buf = s.buf ∧ ∀ a, t.buf.read a = s.buf.read a)
    ∧ ((∀ d o, i ≠ .icRead d o ∧ i ≠ .fcRead d o) → t.sin = s.sin)
    ∧ ((∀ d o, i ≠ .icWrite d o ∧ i ≠ .fcWrite d o) → t.sout = s.sout)
    ∧ ∃ c, t.history = s.history ++ [c] ∧ t.status = some c.status ∧ t.result = c.result

/-- The frame of the two PACKs (R62, R71): the window stored to starts at the length L of BUF and has `io_bytes` (or
`fc_io_bytes`) bytes; every byte outside it reads as before. -/
def Obligations.PackFrame : Prop :=
  ∀ (s t : State) (d : Bool) (o : Endian) (a : Nat),
    (exec (.icPack d o) s = .next t → (a < s.buf.len ∨ s.buf.len + s.cfg.ic.ioBytes ≤ a) →
      t.buf.read a = s.buf.read a)
    ∧ (exec (.fcPack d o) s = .next t → (a < s.buf.len ∨ s.buf.len + s.cfg.fc.transport.ioBytes ≤ a) →
      t.buf.read a = s.buf.read a)

/-- R29: with the same configuration, command, operands, buffer and input stream a command gives the same status,
result and changes, whatever else the state holds. -/
def Obligations.CommandDependsOnlyOnItsInputs : Prop :=
  ∀ (c : Command) (s s' t : State), s'.cfg = s.cfg → s'.buf = s.buf → s'.sin = s.sin → perform c s = .next t →
    ∃ t', perform c s' = .next t' ∧ t'.status = t.status ∧ t'.result = t.result ∧ t'.buf = t.buf ∧ t'.sin = t.sin
      ∧ ∃ bytes, t.sout = s.sout ++ bytes ∧ t'.sout = s'.sout ++ bytes

/-! ## The integer codec's commands -/

/-- R104: IC.UNPACK inside BUF: the window is the `io_bytes` bytes at OFFSET_IN, and RESULT its decoding. -/
def Obligations.IcUnpackAnswersItsWindow : Prop :=
  ∀ (s : State) (d : Bool) (o : Endian), s.Ready → s.offsetIn + s.cfg.ic.ioBytes ≤ s.buf.len →
    ∃ w, w.length = s.cfg.ic.ioBytes ∧ (∀ j < s.cfg.ic.ioBytes, s.buf.read (s.offsetIn + j) = w[j]?)
      ∧ exec (.icUnpack d o) s = .next { s with
          status := some .ok
          result := some ((icDecode s.cfg.ic w (s.cfg.order d o)).setWidth 64)
          history := s.history ++ [⟨.ok, some ((icDecode s.cfg.ic w (s.cfg.order d o)).setWidth 64)⟩] }

/-- R64: an UNPACK whose window passes the end of BUF raises BUFFER_RANGE(off, n, L), padding bytes counted. -/
def Obligations.UnpackPastEndRaisesBufferRange : Prop :=
  ∀ (s : State) (d : Bool) (o : Endian), s.cfg.Legal →
    (s.buf.len < s.offsetIn + s.cfg.ic.ioBytes →
      exec (.icUnpack d o) s = .next { s with
        status := some (.bufferRange s.offsetIn s.cfg.ic.ioBytes s.buf.len), result := none
        history := s.history ++ [⟨.bufferRange s.offsetIn s.cfg.ic.ioBytes s.buf.len, none⟩] })
    ∧ (s.buf.len < s.offsetIn + s.cfg.fc.transport.ioBytes →
      exec (.fcUnpack d o) s = .next { s with
        status := some (.bufferRange s.offsetIn s.cfg.fc.transport.ioBytes s.buf.len), result := none
        history := s.history ++ [⟨.bufferRange s.offsetIn s.cfg.fc.transport.ioBytes s.buf.len, none⟩] })

/-- R105: IC.PACK within the capacity appends the encoding of VALUE_IN's low C bits, and the appended window reads
back as those bytes. -/
def Obligations.IcPackAppendsItsWindow : Prop :=
  ∀ (s : State) (d : Bool) (o : Endian), s.cfg.Legal →
    (∀ limit ∈ s.cfg.maxBuffer, s.buf.len + s.cfg.ic.ioBytes ≤ limit) →
    ∃ bytes, bytes = icEncode s.cfg.ic (s.valueIn.setWidth s.cfg.ic.c) (s.cfg.order d o)
      ∧ bytes.length = s.cfg.ic.ioBytes
      ∧ exec (.icPack d o) s = .next { s with
          buf := s.buf.append bytes, status := some .ok, result := none
          history := s.history ++ [⟨.ok, none⟩] }
      ∧ (s.buf.wf → ∀ j < s.cfg.ic.ioBytes, (s.buf.append bytes).read (s.buf.len + j) = bytes[j]?)

/-- R72: a PACK past the capacity raises BUFFER_RANGE(L, n, MAX_BUFFER_BYTES) and leaves BUF unchanged; an FC.PACK
gets as far as this check when its value has a pattern. -/
def Obligations.PackPastCapacityRaisesBufferRange : Prop :=
  ∀ (s : State) (d : Bool) (o : Endian) (limit : Nat), s.cfg.Legal → s.cfg.maxBuffer = some limit →
    (limit < s.buf.len + s.cfg.ic.ioBytes →
      exec (.icPack d o) s = .next { s with
        status := some (.bufferRange s.buf.len s.cfg.ic.ioBytes limit), result := none
        history := s.history ++ [⟨.bufferRange s.buf.len s.cfg.ic.ioBytes limit, none⟩] })
    ∧ (limit < s.buf.len + s.cfg.fc.transport.ioBytes → fcEncoded s ≠ .overflow →
      exec (.fcPack d o) s = .next { s with
        status := some (.bufferRange s.buf.len s.cfg.fc.transport.ioBytes limit), result := none
        history := s.history ++ [⟨.bufferRange s.buf.len s.cfg.fc.transport.ioBytes limit, none⟩] })

/-- R106: IC.READ with enough bytes consumes `io_bytes` of SIN and answers their decoding. -/
def Obligations.IcReadConsumesItsWindow : Prop :=
  ∀ (s : State) (d : Bool) (o : Endian) (w rest : List Byte), s.cfg.Legal → s.sin = w ++ rest →
    w.length = s.cfg.ic.ioBytes →
    exec (.icRead d o) s = .next { s with
      sin := rest, status := some .ok
      result := some ((icDecode s.cfg.ic w (s.cfg.order d o)).setWidth 64)
      history := s.history ++ [⟨.ok, some ((icDecode s.cfg.ic w (s.cfg.order d o)).setWidth 64)⟩] }

/-- R153: a READ that finds fewer bytes than its window raises STREAM_SHORT(n, available) and consumes nothing. -/
def Obligations.ShortReadRaisesStreamShort : Prop :=
  ∀ (s : State) (d : Bool) (o : Endian), s.cfg.Legal →
    (s.sin.length < s.cfg.ic.ioBytes →
      exec (.icRead d o) s = .next { s with
        status := some (.streamShort s.cfg.ic.ioBytes s.sin.length), result := none
        history := s.history ++ [⟨.streamShort s.cfg.ic.ioBytes s.sin.length, none⟩] })
    ∧ (s.sin.length < s.cfg.fc.transport.ioBytes →
      exec (.fcRead d o) s = .next { s with
        status := some (.streamShort s.cfg.fc.transport.ioBytes s.sin.length), result := none
        history := s.history ++ [⟨.streamShort s.cfg.fc.transport.ioBytes s.sin.length, none⟩] })

/-- R107: IC.WRITE always appends the encoding of VALUE_IN's low C bits to SOUT, whatever BUF's capacity. -/
def Obligations.IcWriteAppendsToTheStream : Prop :=
  ∀ (s : State) (d : Bool) (o : Endian), s.cfg.Legal →
    exec (.icWrite d o) s = .next { s with
      sout := s.sout ++ icEncode s.cfg.ic (s.valueIn.setWidth s.cfg.ic.c) (s.cfg.order d o)
      status := some .ok, result := none
      history := s.history ++ [⟨.ok, none⟩] }

/-! ## The float codec's commands -/

/-- R133: FC.UNPACK inside BUF: the transport's pattern of the window, decoded and turned native. -/
def Obligations.FcUnpackAnswersItsWindow : Prop :=
  ∀ (s : State) (d : Bool) (o : Endian), s.Ready → s.offsetIn + s.cfg.fc.transport.ioBytes ≤ s.buf.len →
    ∃ w v, w.length = s.cfg.fc.transport.ioBytes
      ∧ (∀ j < s.cfg.fc.transport.ioBytes, s.buf.read (s.offsetIn + j) = w[j]?)
      ∧ v = nativeEncode s.cfg.nativeRound s.cfg.nanBits s.cfg.fc.w
          (floatDecode s.cfg.fc.toFloatFmt (fcRawOfWindow s.cfg.fc w (s.cfg.order d o)))
      ∧ exec (.fcUnpack d o) s = .next { s with
          status := some .ok, result := some (v.setWidth 64)
          history := s.history ++ [⟨.ok, some (v.setWidth 64)⟩] }

/-- R134: FC.PACK of a value that has a pattern, within the capacity, appends the transport's encoding of it. -/
def Obligations.FcPackAppendsItsWindow : Prop :=
  ∀ (s : State) (d : Bool) (o : Endian) (raw : BitVec s.cfg.fc.toFloatFmt.width), s.cfg.Legal →
    floatEncode s.cfg.fc.toFloatFmt
        (nativeDecode s.cfg.fc.w (s.valueIn.setWidth (nativeFmt s.cfg.fc.w).width)) = .pattern raw →
    (∀ limit ∈ s.cfg.maxBuffer, s.buf.len + s.cfg.fc.transport.ioBytes ≤ limit) →
    ∃ bytes, bytes = icEncode s.cfg.fc.transport (raw.setWidth s.cfg.fc.transport.c) (s.cfg.order d o)
      ∧ bytes.length = s.cfg.fc.transport.ioBytes
      ∧ exec (.fcPack d o) s = .next { s with
          buf := s.buf.append bytes, status := some .ok, result := none
          history := s.history ++ [⟨.ok, none⟩] }
      ∧ (s.buf.wf → ∀ j < s.cfg.fc.transport.ioBytes, (s.buf.append bytes).read (s.buf.len + j) = bytes[j]?)

/-- R135: FC.READ with enough bytes consumes `fc_io_bytes` of SIN and answers the native value of their pattern. -/
def Obligations.FcReadConsumesItsWindow : Prop :=
  ∀ (s : State) (d : Bool) (o : Endian) (w rest : List Byte), s.cfg.Legal → s.sin = w ++ rest →
    w.length = s.cfg.fc.transport.ioBytes →
    ∃ v, v = nativeEncode s.cfg.nativeRound s.cfg.nanBits s.cfg.fc.w
        (floatDecode s.cfg.fc.toFloatFmt (fcRawOfWindow s.cfg.fc w (s.cfg.order d o)))
      ∧ exec (.fcRead d o) s = .next { s with
          sin := rest, status := some .ok, result := some (v.setWidth 64)
          history := s.history ++ [⟨.ok, some (v.setWidth 64)⟩] }

/-- R136: FC.WRITE of a value that has a pattern appends the transport's encoding of it to SOUT, whatever BUF's
capacity. -/
def Obligations.FcWriteAppendsToTheStream : Prop :=
  ∀ (s : State) (d : Bool) (o : Endian) (raw : BitVec s.cfg.fc.toFloatFmt.width), s.cfg.Legal →
    floatEncode s.cfg.fc.toFloatFmt
        (nativeDecode s.cfg.fc.w (s.valueIn.setWidth (nativeFmt s.cfg.fc.w).width)) = .pattern raw →
    exec (.fcWrite d o) s = .next { s with
      sout := s.sout ++ icEncode s.cfg.fc.transport (raw.setWidth s.cfg.fc.transport.c) (s.cfg.order d o)
      status := some .ok, result := none
      history := s.history ++ [⟨.ok, none⟩] }

/-- R158: the order of the checks. An illegal word is reported whatever the operands; a value FC.PACK or FC.WRITE
cannot encode is reported before any lack of room in BUF. -/
def Obligations.FaultPriority : Prop :=
  (∀ (s : State) (c : Command) (rest : List Input) (why : Illegal), s.cfg.Legal → s.pending = .command c :: rest →
    decode c.word = .illegal why → ∃ t, step s = .next t ∧ t.status = some (.illegalCommand c.word))
  ∧ (∀ (s : State) (d : Bool) (o : Endian), s.cfg.Legal → fcEncoded s = .overflow →
    ∃ v, v = (s.valueIn.setWidth (nativeFmt s.cfg.fc.w).width).setWidth 64
      ∧ (exec (.fcPack d o) s = .next { s with
          status := some (.floatOverflow v), result := none, history := s.history ++ [⟨.floatOverflow v, none⟩] })
      ∧ (exec (.fcWrite d o) s = .next { s with
          status := some (.floatOverflow v), result := none, history := s.history ++ [⟨.floatOverflow v, none⟩] }))

/-! ## Integer laws -/

/-- R45, R48, R69: the padding fills the container, a window has 1 to 8 bytes, and the sign mask selects bit
`(N-1) mod 8`. R49, R55: the FC's transport is a legal unsigned, unaligned codec of `1+E+F` bits in T, whose window has
`ceil((1+E+F)/8)` bytes. -/
def Obligations.DerivedWindowConstants : Prop :=
  (∀ p : BitWidthSpec, p.check = none →
    (p.aligned = true → p.alignBytes = (p.c - p.n) / 8 ∧ p.alignBytes = p.c / 8 - p.dataBytes ∧ p.ioBytes = p.c / 8)
    ∧ (p.aligned = false → p.alignBytes = 0 ∧ p.ioBytes = (p.n + 7) / 8)
    ∧ 1 ≤ p.ioBytes ∧ p.ioBytes ≤ 8
    ∧ ∀ i < 8, p.signMask.getLsbD i = decide (i = (p.n - 1) % 8))
  ∧ ∀ p : FloatFormatSpec, p.check = none →
    p.transport.c = p.t ∧ p.transport.signed = false ∧ p.transport.n = 1 + p.e + p.f ∧ p.transport.aligned = false
      ∧ p.transport.check = none ∧ p.transport.ioBytes = (1 + p.e + p.f + 7) / 8

/-- R108: pack truncates modulo 2^N, and an unpack result is the zero or sign extension of the low N raw bits. -/
def Obligations.DecodeExtendsTheRawBits : Prop :=
  ∀ (p : BitWidthSpec) (w : List Byte) (b : ByteOrder) (x : BitVec p.c), p.check = none →
    (icMask p x).toNat = x.toNat % 2 ^ p.n
    ∧ (p.signed = false ∨ p.n = p.c → icDecode p w b = ((icAssemble p w b).setWidth p.n).setWidth p.c)
    ∧ (p.signed = true → p.n < p.c → icDecode p w b = ((icAssemble p w b).setWidth p.n).signExtend p.c)

/-- R109: the round trip, for every legal spec, both orders and both alignments. -/
def Obligations.IntegerRoundTrip : Prop :=
  ∀ (p : BitWidthSpec) (v : BitVec p.c) (b : ByteOrder), p.check = none →
    (if p.signed then (v.setWidth p.n).signExtend p.c else v &&& p.valueMask) = v →
    icDecode p (icEncode p v b) b = v

/-- R110: packing a value with garbage above bit N yields the bytes of the masked value. -/
def Obligations.PackIgnoresGarbageAboveN : Prop :=
  ∀ (p : BitWidthSpec) (x y : BitVec p.c) (b : ByteOrder), p.check = none →
    icEncode p x b = icEncode p (x &&& p.valueMask) b
    ∧ ((∀ i < p.n, x.getLsbD i = y.getLsbD i) → icEncode p x b = icEncode p y b)

/-- R111: for a signed codec, raw bits with the sign bit set decode to the raw bits minus 2^N. -/
def Obligations.SignBitMeansMinusTwoToN : Prop :=
  ∀ (p : BitWidthSpec) (w : List Byte) (b : ByteOrder), p.check = none → p.signed = true →
    (icMask p (icAssemble p w b)).getLsbD (p.n - 1) = true →
    (icDecode p w b).toInt = ((icMask p (icAssemble p w b)).toNat : Int) - 2 ^ p.n ∧ (icDecode p w b).toInt < 0

/-- R112: a window read Big is the reversed window read Little, for both codecs. -/
def Obligations.EndiannessSymmetry : Prop :=
  (∀ (p : BitWidthSpec) (w : List Byte), p.check = none → w.length = p.ioBytes →
    icDecode p w .big = icDecode p w.reverse .little)
  ∧ ∀ (p : FloatFormatSpec) (w : List Byte), p.check = none → w.length = p.transport.ioBytes →
    fcRawOfWindow p w .big = fcRawOfWindow p w.reverse .little

/-- R113: the sign probe tests bit N-1 of the masked value, so it depends on no padding byte and no garbage bit. -/
def Obligations.SignProbeIsBitNMinusOne : Prop :=
  ∀ (p : BitWidthSpec) (w w' : List Byte) (b : ByteOrder), p.check = none →
    icSignProbe p w b = (icMask p (icAssemble p w b)).getLsbD (p.n - 1)
    ∧ ((∀ i < p.n, (w.getD (pos 0 p.ioBytes (i / 8) b) 0).getLsbD (i % 8)
        = (w'.getD (pos 0 p.ioBytes (i / 8) b) 0).getLsbD (i % 8)) →
      icSignProbe p w b = icSignProbe p w' b)

/-- R68 (U1, U2): two windows that agree on the value bits of their data bytes decode alike, whatever their padding
bytes and the bits above N hold. -/
def Obligations.DecodeIgnoresPaddingAndGarbage : Prop :=
  ∀ (p : BitWidthSpec) (w w' : List Byte) (b : ByteOrder), p.check = none →
    (∀ i < p.n, (w.getD (pos 0 p.ioBytes (i / 8) b) 0).getLsbD (i % 8)
      = (w'.getD (pos 0 p.ioBytes (i / 8) b) 0).getLsbD (i % 8)) →
    icDecode p w b = icDecode p w' b

/-- R114: the aligned encoding is the unaligned one with zero bytes at its most significant end, and both unpack
alike. -/
def Obligations.AlignedEncodingOnlyAddsZeroBytes : Prop :=
  ∀ (c n : Nat) (sg : Bool) (x : BitVec c), (⟨c, sg, n, true⟩ : BitWidthSpec).check = none →
    icEncode ⟨c, sg, n, true⟩ x .little = icEncode ⟨c, sg, n, false⟩ x .little ++ List.replicate ((c - n) / 8) 0
    ∧ icEncode ⟨c, sg, n, true⟩ x .big = List.replicate ((c - n) / 8) 0 ++ icEncode ⟨c, sg, n, false⟩ x .big
    ∧ ∀ b, icDecode ⟨c, sg, n, true⟩ (icEncode ⟨c, sg, n, true⟩ x b) b
        = icDecode ⟨c, sg, n, false⟩ (icEncode ⟨c, sg, n, false⟩ x b) b

/-- R69: the window a pack writes is the masked container value in the resolved byte order, truncated to its n least
significant bytes; an aligned window is the whole container. -/
def Obligations.WindowIsTheContainerInOrder : Prop :=
  ∀ (p : BitWidthSpec) (x : BitVec p.c), p.check = none →
    (∀ b, (icEncode p x b).length = p.ioBytes) ∧ (p.aligned = true → p.ioBytes = p.c / 8)
    ∧ ∀ i < p.ioBytes, (icEncode p x .little)[i]? = some ((x &&& p.valueMask).extractLsb' (8 * i) 8)
      ∧ (icEncode p x .big)[p.ioBytes - 1 - i]? = some ((x &&& p.valueMask).extractLsb' (8 * i) 8)

/-- R115: the range of an IC result, for both commands that have one. -/
def Obligations.IcResultRange : Prop :=
  ∀ (s t : State) (d : Bool) (o : Endian) (v : Bus), exec (.icUnpack d o) s = .next t ∨ exec (.icRead d o) s = .next t →
    t.result = some v →
    ∃ r : BitVec s.cfg.ic.c, v = r.setWidth 64
      ∧ (s.cfg.ic.signed = false → r.toNat < 2 ^ s.cfg.ic.n)
      ∧ (s.cfg.ic.signed = true → -(2 ^ (s.cfg.ic.n - 1)) ≤ r.toInt ∧ r.toInt < 2 ^ (s.cfg.ic.n - 1))

/-- R178, R109 on the machine: IC.PACK and then IC.UNPACK of the appended window, in the same ordering, answers
VALUE_IN cut to N bits and extended, with no command between them. -/
def Obligations.IcPackThenUnpack : Prop :=
  ∀ (s : State) (d : Bool) (o : Endian), s.Ready →
    (∀ limit ∈ s.cfg.maxBuffer, s.buf.len + s.cfg.ic.ioBytes ≤ limit) →
    ∃ t u, exec (.icPack d o) s = .next t ∧ exec (.icUnpack d o) { t with offsetIn := s.buf.len } = .next u
      ∧ u.status = some .ok
      ∧ (s.cfg.ic.signed = false → u.result = some ((s.valueIn.setWidth s.cfg.ic.n).setWidth 64))
      ∧ (s.cfg.ic.signed = true →
        u.result = some (((s.valueIn.setWidth s.cfg.ic.n).signExtend s.cfg.ic.c).setWidth 64))

/-! ## Float laws -/

/-- R120, R121: an all-ones exponent is an infinity of the pattern's sign, or NaN where the fraction is not zero. -/
def Obligations.AllOnesExponentDecodes : Prop :=
  ∀ (p : FloatFmt) (raw : BitVec p.width), p.Ok → raw.toNat / 2 ^ p.f % 2 ^ p.e = 2 ^ p.e - 1 →
    (raw.toNat % 2 ^ p.f = 0 → floatDecode p raw = .inf (raw.getLsbD (p.f + p.e)))
    ∧ (raw.toNat % 2 ^ p.f ≠ 0 → floatDecode p raw = .nan)

/-- R120, R122: every other pattern is the finite value of the source's formula, in exact rationals. -/
def Obligations.FiniteDecodeFormula : Prop :=
  ∀ (p : FloatFmt) (raw : BitVec p.width) (adj : Nat), p.Ok → raw.toNat / 2 ^ p.f % 2 ^ p.e ≠ 2 ^ p.e - 1 →
    adj = (if raw.toNat / 2 ^ p.f % 2 ^ p.e = 0 then 0 else 1) →
    (floatDecode p raw).IsFin (raw.getLsbD (p.f + p.e))
      ((2 : ℚ) ^ (((raw.toNat / 2 ^ p.f % 2 ^ p.e : Nat) : Int) - ((2 ^ (p.e - 1) - 1 : Nat) : Int) + 1 - adj)
        * (adj + ((raw.toNat % 2 ^ p.f : Nat) : ℚ) / 2 ^ p.f))

/-- R125: the patterns of the infinities, of NaN and of the signed zeros, as numbers. -/
def Obligations.SpecialValuesEncode : Prop :=
  ∀ (p : FloatFmt) (s : Bool) (j : Int), p.Ok →
    (∃ raw, floatEncode p (.inf s) = .pattern raw
      ∧ raw.toNat = s.toNat * 2 ^ (p.e + p.f) + (2 ^ p.e - 1) * 2 ^ p.f)
    ∧ (∃ raw, floatEncode p .nan = .pattern raw ∧ raw.toNat = (2 ^ p.e - 1) * 2 ^ p.f + 2 ^ (p.f - 1))
    ∧ (∃ raw, floatEncode p (.fin s 0 j) = .pattern raw ∧ raw.toNat = s.toNat * 2 ^ (p.e + p.f))

/-- R139, first part: FloatEncode is exact round-to-nearest-even onto the finite values of the format, and keeps the
sign. -/
def Obligations.EncodeRoundsToNearestEven : Prop :=
  ∀ (p : FloatFmt) (s : Bool) (m : Nat) (j : Int) (raw : BitVec p.width), p.Ok → 0 < m →
    floatEncode p (.fin s m j) = .pattern raw →
    ∃ q, (floatDecode p raw).IsFin s q
      ∧ ∀ q', p.Holds q' → |magnitude m j - q| ≤ |magnitude m j - q'|
        ∧ (q' ≠ q → |magnitude m j - q| = |magnitude m j - q'| → raw.toNat % 2 = 0)

/-- R139, second part: FLOAT_OVERFLOW exactly from half a spacing above the largest finite value; for E ≥ 2 that is
`(2 - 2^-(F+1)) · 2^exponent_max`. -/
def Obligations.OverflowThreshold : Prop :=
  ∀ p : FloatFmt, p.Ok → ∃ maxf next : ℚ,
    IsGreatest {q | p.Holds q} maxf ∧ IsGreatest {q | p.Holds q ∧ q < maxf} next
    ∧ (2 ≤ p.e → maxf + (maxf - next) / 2 = (2 - (2 : ℚ) ^ (-((p.f : Int) + 1))) * 2 ^ p.exponentMax)
    ∧ ∀ (s : Bool) (m : Nat) (j : Int), 0 < m →
      (floatEncode p (.fin s m j) = .overflow ↔ maxf + (maxf - next) / 2 ≤ magnitude m j)

/-- R144: nothing finite is ever packed as ∞ or NaN: ∞ is written only for ∞, NaN only for NaN, and a finite value
whose binary exponent exceeds `exponent_max` fails. -/
def Obligations.FiniteNeverSaturates : Prop :=
  ∀ (p : FloatFmt) (val : FloatVal), p.Ok →
    (∀ raw, floatEncode p val = .pattern raw →
      (∀ s, floatDecode p raw = .inf s ↔ val = .inf s) ∧ (floatDecode p raw = .nan ↔ val = .nan))
    ∧ ∀ s m j, val = .fin s m j → (2 : ℚ) ^ (p.exponentMax + 1) ≤ magnitude m j → floatEncode p val = .overflow

/-- R137 on patterns: encoding what a pattern decodes to gives the pattern back, for every pattern but a NaN. -/
def Obligations.FloatPatternRoundTrip : Prop :=
  ∀ (p : FloatFmt) (raw : BitVec p.width), p.Ok → floatDecode p raw ≠ .nan →
    floatEncode p (floatDecode p raw) = .pattern raw

/-- R131: under every NATIVE_ROUND a value that is native gets its exact native pattern, sign of zero included, and an
infinity the native infinity of its sign. Under the default NATIVE_ROUND every other finite value gets the pattern
R125 to R129 give it in the native format, or the infinity of its sign where they overflow. -/
def Obligations.NativeEncodeIsExact : Prop :=
  (∀ (nr : NativeRound) (nb : NanBits) (w : Nat) (val : FloatVal) (x : BitVec (nativeFmt w).width) (s : Bool) (q : ℚ),
    val.IsFin s q → (nativeDecode w x).IsFin s q → nativeEncode nr nb w val = x)
  ∧ (∀ (nr : NativeRound) (nb : NanBits) (w : Nat) (s : Bool),
    (nativeEncode nr nb w (.inf s)).toNat
      = s.toNat * 2 ^ ((nativeFmt w).e + (nativeFmt w).f) + (2 ^ (nativeFmt w).e - 1) * 2 ^ (nativeFmt w).f)
  ∧ ∀ (nb : NanBits) (w : Nat) (s : Bool) (m : Nat) (j : Int),
    (∀ raw, floatEncode (nativeFmt w) (.fin s m j) = .pattern raw → nativeEncode .rneOnce nb w (.fin s m j) = raw)
    ∧ (floatEncode (nativeFmt w) (.fin s m j) = .overflow →
      (nativeEncode .rneOnce nb w (.fin s m j)).toNat
        = s.toNat * 2 ^ ((nativeFmt w).e + (nativeFmt w).f) + (2 ^ (nativeFmt w).e - 1) * 2 ^ (nativeFmt w).f)

/-- R131, last sentence: a format no wider than the native one in exponent and fraction unpacks exactly. -/
def Obligations.NarrowFormatsUnpackExactly : Prop :=
  ∀ (nr : NativeRound) (nb : NanBits) (w : Nat) (p : FloatFmt) (raw : BitVec p.width) (s : Bool) (q : ℚ), p.Ok →
    p.e ≤ (nativeFmt w).e → p.f ≤ (nativeFmt w).f → (floatDecode p raw).IsFin s q →
    (nativeDecode w (nativeEncode nr nb w (floatDecode p raw))).IsFin s q

/-- R142, R132: pack writes one pattern for every NaN, and unpack answers a NaN for every NaN pattern: QNAN_W where the
NaN bits are the spec's. That other quiet NaNs are possible is the model's (log entry 9). -/
def Obligations.NaNIsCanonical : Prop :=
  (∀ (p : FloatFmt) (w : Nat) (x : BitVec (nativeFmt w).width), p.Ok → nativeDecode w x = .nan →
    ∃ raw, floatEncode p (nativeDecode w x) = .pattern raw
      ∧ raw.toNat = (2 ^ p.e - 1) * 2 ^ p.f + 2 ^ (p.f - 1) ∧ floatDecode p raw = .nan)
  ∧ (∀ (nr : NativeRound) (nb : NanBits) (w : Nat), nativeDecode w (nativeEncode nr nb w .nan) = .nan)
  ∧ ∀ nr : NativeRound, (nativeEncode nr .canonical 32 .nan).toNat = 0x7FC00000
    ∧ (nativeEncode nr .canonical 64 .nan).toNat = 0x7FF8000000000000

/-- R141: signed zero is kept both ways, and a flush to zero keeps the sign. -/
def Obligations.SignedZeroIsKept : Prop :=
  ∀ (p : FloatFmt) (s : Bool) (m : Nat) (j : Int) (nr : NativeRound) (nb : NanBits) (w : Nat), p.Ok →
    (m = 0 ∨ magnitude m j < (2 : ℚ) ^ p.minNormalizedExponent →
      ∃ raw, floatEncode p (.fin s m j) = .pattern raw ∧ raw.toNat = s.toNat * 2 ^ (p.e + p.f)
        ∧ (floatDecode p raw).IsFin s 0
        ∧ (nativeEncode nr nb w (floatDecode p raw)).toNat = s.toNat * 2 ^ ((nativeFmt w).e + (nativeFmt w).f))

/-- R137 on the machine: FC.PACK and then FC.UNPACK of the appended window, in the same ordering, answers VALUE_IN again
when its value is one of the FC's own, and a NaN for a NaN. -/
def Obligations.FcPackThenUnpack : Prop :=
  ∀ (s : State) (d : Bool) (o : Endian) (x : BitVec (nativeFmt s.cfg.fc.w).width), s.Ready →
    (∀ limit ∈ s.cfg.maxBuffer, s.buf.len + s.cfg.fc.transport.ioBytes ≤ limit) →
    s.valueIn = x.setWidth 64 →
    (∀ sg q, (nativeDecode s.cfg.fc.w x).IsFin sg q → s.cfg.fc.toFloatFmt.Holds q) →
    ∃ t u, exec (.fcPack d o) s = .next t ∧ exec (.fcUnpack d o) { t with offsetIn := s.buf.len } = .next u
      ∧ u.status = some .ok
      ∧ (nativeDecode s.cfg.fc.w x ≠ .nan → u.result = some (x.setWidth 64))
      ∧ (nativeDecode s.cfg.fc.w x = .nan →
        ∃ y : BitVec (nativeFmt s.cfg.fc.w).width, u.result = some (y.setWidth 64)
          ∧ nativeDecode s.cfg.fc.w y = .nan)
end

