-- ==== Sys2Proof/Laws/Operands.lean ====
section
/-! SUPPORT. The laws of the traversal: where the data bytes of a window stand (spec/20_memory.md R66 to R68). -/

namespace Sys2Proof

@[simp] theorem pos_little (off n i : Nat) : pos off n i .little = off + i := rfl

@[simp] theorem pos_big (off n i : Nat) : pos off n i .big = off + n - 1 - i := rfl

/-- Every data byte stands inside its window. -/
theorem pos_lt {n i : Nat} (h : i < n) (b : ByteOrder) : pos 0 n i b < n := by
  cases b <;> (simp; omega)

/-- Two data bytes never share a place. -/
theorem pos_inj {n i j : Nat} (hi : i < n) (hj : j < n) (b : ByteOrder) (h : pos 0 n i b = pos 0 n j b) : i = j := by
  cases b <;> (simp at h; omega)

/-- The place of a place is the byte it came from. -/
theorem pos_pos {n i : Nat} (h : i < n) (b : ByteOrder) : pos 0 n (pos 0 n i b) b = i := by
  cases b
  · simp
  · simp; omega

/-- A window's places are those of the window at offset 0, moved. -/
theorem pos_off (off : Nat) {n i : Nat} (h : i < n) (b : ByteOrder) : pos off n i b = off + pos 0 n i b := by
  cases b
  · simp
  · simp; omega

/-- Reversing a window turns one traversal into the other (spec/40_integer_codec.md R112). -/
theorem getD_reverse_pos {w : List Byte} {n i : Nat} (hw : w.length = n) (h : i < n) :
    w.reverse.getD (pos 0 n i .little) 0 = w.getD (pos 0 n i .big) 0 := by
  subst hw
  simp [List.getD_eq_getElem?_getD, List.getElem?_reverse h]

end Sys2Proof
end

