-- ==== Sys2Proof/Laws/IntegerCodec.lean ====
section
/-! SUPPORT. The integer codec bit by bit: what the mask keeps, which bits an assembled window has, which bytes an
encoded value has (spec/40_integer_codec.md R100 to R103). -/

namespace Sys2Proof

/-- What the checks of R57 give. -/
theorem BitWidthSpec.check_none {p : BitWidthSpec} (h : p.check = none) :
    (p.c = 8 ∨ p.c = 16 ∨ p.c = 32 ∨ p.c = 64) ∧ 1 ≤ p.n ∧ p.n ≤ p.c := by
  unfold BitWidthSpec.check at h
  split at h
  · cases h
  · next h₁ =>
    split at h
    · cases h
    · simp at h₁
      omega

theorem BitWidthSpec.dataBytes_le_ioBytes (p : BitWidthSpec) : p.dataBytes ≤ p.ioBytes := Nat.le_add_right _ _

/-- Value bit `i` stands in data byte `i / 8`. -/
theorem BitWidthSpec.div_lt_dataBytes {p : BitWidthSpec} {i : Nat} (h : i < p.n) : i / 8 < p.dataBytes := by
  unfold BitWidthSpec.dataBytes; omega

/-- A window has 1 to 8 bytes. -/
theorem BitWidthSpec.ioBytes_bounds {p : BitWidthSpec} (h : p.check = none) : 1 ≤ p.ioBytes ∧ 8 * p.ioBytes ≤ 64 := by
  obtain ⟨hc, h1, h2⟩ := BitWidthSpec.check_none h
  unfold BitWidthSpec.ioBytes BitWidthSpec.dataBytes BitWidthSpec.alignBytes
  split <;> omega

/-! ## The mask -/

theorem toNat_valueMask {p : BitWidthSpec} (h : p.n ≤ p.c) : p.valueMask.toNat = 2 ^ p.n - 1 := by
  have hc : 2 ^ p.n ≤ 2 ^ p.c := Nat.pow_le_pow_right (by omega) h
  have hp : 0 < 2 ^ p.n := Nat.two_pow_pos _
  by_cases h0 : p.c = 0
  · have : p.n = 0 := by omega
    simp [this, Nat.lt_one_iff.1 (by simpa [h0] using p.valueMask.isLt : p.valueMask.toNat < 1)]
  · have h1 : 1 % 2 ^ p.c = 1 := Nat.mod_eq_of_lt (Nat.one_lt_two_pow h0)
    rw [BitWidthSpec.valueMask, BitVec.toNat_sub, BitVec.toNat_shiftLeft, BitVec.toNat_ofNat, h1, Nat.shiftLeft_eq,
      Nat.one_mul]
    rcases Nat.lt_or_ge p.n p.c with hlt | hge
    · have hl : 2 ^ p.n < 2 ^ p.c := Nat.pow_lt_pow_right (by omega) hlt
      rw [Nat.mod_eq_of_lt hl, show 2 ^ p.c - 1 + 2 ^ p.n = 2 ^ p.n - 1 + 2 ^ p.c by omega, Nat.add_mod_right,
        Nat.mod_eq_of_lt (by omega)]
    · rw [show p.n = p.c by omega, Nat.mod_self, Nat.add_zero, Nat.mod_eq_of_lt (by omega)]

theorem getLsbD_valueMask {p : BitWidthSpec} (h : p.n ≤ p.c) (i : Nat) : p.valueMask.getLsbD i = decide (i < p.n) := by
  rw [← BitVec.testBit_toNat, toNat_valueMask h, Nat.testBit_two_pow_sub_one]

theorem getLsbD_icMask {p : BitWidthSpec} (h : p.n ≤ p.c) (x : BitVec p.c) (i : Nat) :
    (icMask p x).getLsbD i = (x.getLsbD i && decide (i < p.n)) := by
  rw [icMask, BitVec.getLsbD_and, getLsbD_valueMask h]

theorem toNat_icMask {p : BitWidthSpec} (h : p.n ≤ p.c) (x : BitVec p.c) : (icMask p x).toNat = x.toNat % 2 ^ p.n := by
  rw [icMask, BitVec.toNat_and, toNat_valueMask h, Nat.and_two_pow_sub_one_eq_mod]

@[simp] theorem icMask_icMask (p : BitWidthSpec) (x : BitVec p.c) : icMask p (icMask p x) = icMask p x := by
  simp [icMask, BitVec.and_assoc]

/-! ## Assembling a window -/

theorem getLsbD_icAssembleFirst (p : BitWidthSpec) (w : List Byte) (b : ByteOrder) (k i : Nat) (h : i < p.c) :
    (icAssembleFirst p w b k).getLsbD i
      = (decide (i < 8 * k) && (w.getD (pos 0 p.ioBytes (i / 8) b) 0).getLsbD (i % 8)) := by
  induction k with
  | zero => simp [icAssembleFirst]
  | succ k ih =>
    rw [icAssembleFirst, BitVec.getLsbD_or, ih, BitVec.getLsbD_shiftLeft, BitVec.getLsbD_setWidth]
    rcases Nat.lt_trichotomy (i / 8) k with hlt | heq | hgt
    · have h₁ : i < 8 * k := by omega
      have h₂ : i < 8 * (k + 1) := by omega
      simp [h, h₁, h₂]
    · have h₁ : ¬ i < 8 * k := by omega
      have h₂ : i < 8 * (k + 1) := by omega
      have h₃ : i - 8 * k = i % 8 := by omega
      have h₄ : i % 8 < p.c := by omega
      simp [h, h₁, h₂, h₃, heq, h₄]
    · have h₁ : ¬ i < 8 * k := by omega
      have h₂ : ¬ i < 8 * (k + 1) := by omega
      have h₃ : 8 ≤ i - 8 * k := by omega
      simp [h₁, h₂, BitVec.getLsbD_of_ge _ _ h₃]

/-- Bit `i` of an assembled window is bit `i % 8` of data byte `i / 8`. -/
theorem getLsbD_icAssemble (p : BitWidthSpec) (w : List Byte) (b : ByteOrder) (i : Nat) (h : i < p.c) :
    (icAssemble p w b).getLsbD i
      = (decide (i < 8 * p.dataBytes) && (w.getD (pos 0 p.ioBytes (i / 8) b) 0).getLsbD (i % 8)) :=
  getLsbD_icAssembleFirst p w b _ i h

/-! ## Encoding a value -/

@[simp] theorem length_icEncodeFirst (p : BitWidthSpec) (m : BitVec p.c) (b : ByteOrder) (k : Nat) :
    (icEncodeFirst p m b k).length = p.ioBytes := by
  induction k with
  | zero => simp [icEncodeFirst]
  | succ k ih => simp [icEncodeFirst, ih]

/-- A pack writes exactly `io_bytes` bytes (spec/10_state.md R46). -/
@[simp] theorem length_icEncode (p : BitWidthSpec) (x : BitVec p.c) (b : ByteOrder) :
    (icEncode p x b).length = p.ioBytes := length_icEncodeFirst p _ b _

theorem getElem?_icEncodeFirst (p : BitWidthSpec) (m : BitVec p.c) (b : ByteOrder) (k i : Nat) (hi : i < p.ioBytes)
    (hk : k ≤ p.ioBytes) :
    (icEncodeFirst p m b k)[pos 0 p.ioBytes i b]?
      = some (if i < k then (m >>> (8 * i)).setWidth 8 else 0) := by
  induction k with
  | zero => simp [icEncodeFirst, pos_lt hi]
  | succ k ih =>
    rw [icEncodeFirst, List.getElem?_set, length_icEncodeFirst]
    by_cases h : i = k
    · subst h
      simp [pos_lt hi]
    · have hne : pos 0 p.ioBytes k b ≠ pos 0 p.ioBytes i b := fun e => h (pos_inj (by omega) hi b e).symm
      have hiff : (i < k + 1) = (i < k) := by simp; omega
      rw [if_neg hne, ih (by omega)]
      simp [hiff]

/-- The byte that stands where data byte `i` does: byte `i` of the masked value, or the zero of the padding. -/
theorem getElem?_icEncode (p : BitWidthSpec) (x : BitVec p.c) (b : ByteOrder) (i : Nat) (hi : i < p.ioBytes) :
    (icEncode p x b)[pos 0 p.ioBytes i b]?
      = some (if i < p.dataBytes then (icMask p x >>> (8 * i)).setWidth 8 else 0) :=
  getElem?_icEncodeFirst p _ b _ i hi p.dataBytes_le_ioBytes

/-- Assembling what was encoded gives the masked value. -/
theorem icAssemble_icEncode {p : BitWidthSpec} (h : p.n ≤ p.c) (x : BitVec p.c) (b : ByteOrder) :
    icAssemble p (icEncode p x b) b = icMask p x := by
  refine BitVec.eq_of_getLsbD_eq fun i hi => ?_
  rw [getLsbD_icAssemble p _ b i hi]
  by_cases hd : i / 8 < p.dataBytes
  · have h₁ : i < 8 * p.dataBytes := by omega
    rw [List.getD_eq_getElem?_getD, getElem?_icEncode p x b _ (Nat.lt_of_lt_of_le hd p.dataBytes_le_ioBytes)]
    have h₂ : 8 * (i / 8) + i % 8 = i := Nat.div_add_mod i 8
    simp [hd, h₁, Nat.mod_lt, h₂]
  · have h₁ : ¬ i < 8 * p.dataBytes := by omega
    have h₂ : ¬ i < p.n := by unfold BitWidthSpec.dataBytes at h₁; omega
    rw [getLsbD_icMask h]
    simp [h₁, h₂]

/-- A decoded window depends on the assembled bits and the probed byte alone; an unsigned codec only masks. -/
theorem icDecode_unsigned {p : BitWidthSpec} (h : p.signed = false) (w : List Byte) (b : ByteOrder) :
    icDecode p w b = icMask p (icAssemble p w b) := by
  simp [icDecode, icSignExtend, h]

end Sys2Proof
end

