-- ==== Sys2Proof/Laws/FloatCodec.lean ====
section
/-! SUPPORT. The float codec field by field: what the fields of a pattern are, what the exact scaling and the rounding
compute (spec/41_float_codec.md R120, R126, R128, R129). -/

namespace Sys2Proof

/-! ## The constants of a format -/

theorem FloatFmt.den_pos (p : FloatFmt) : 0 < p.den := Nat.two_pow_pos _

theorem FloatFmt.fractionMask_eq (p : FloatFmt) : p.fractionMask = p.den - 1 := rfl

/-- `exponent_mask = 2·bias + 1` (R50, R51). -/
theorem FloatFmt.exponentMask_eq {p : FloatFmt} (h : 1 ≤ p.e) : p.exponentMask = 2 * p.bias + 1 := by
  obtain ⟨k, hk⟩ := Nat.exists_eq_add_of_le' h
  have : 0 < 2 ^ k := Nat.two_pow_pos _
  simp only [FloatFmt.exponentMask, FloatFmt.bias, hk, Nat.add_sub_cancel, Nat.pow_succ]
  omega

/-- What the checks of R58 give. -/
theorem FloatFormatSpec.check_none {p : FloatFormatSpec} (h : p.check = none) :
    p.toFloatFmt.Ok ∧ (p.t = 8 ∨ p.t = 16 ∨ p.t = 32 ∨ p.t = 64) ∧ 1 + p.e + p.f ≤ p.t ∧ (p.w = 32 ∨ p.w = 64) := by
  unfold FloatFormatSpec.check at h
  split at h
  · cases h
  split at h
  · cases h
  split at h
  · cases h
  split at h
  · cases h
  split at h
  · cases h
  simp_all [FloatFmt.Ok]
  omega

/-- The transport passes the checks of an integer codec (R49). -/
theorem FloatFormatSpec.transport_check {p : FloatFormatSpec} (h : p.check = none) : p.transport.check = none := by
  obtain ⟨h₁, h₂, h₃, h₄⟩ := FloatFormatSpec.check_none h
  have hc : p.transport.c ∈ [8, 16, 32, 64] := by simpa [FloatFormatSpec.transport] using h₂
  have hn : ¬ (p.transport.n < 1 ∨ p.transport.c < p.transport.n) := by
    simp only [FloatFormatSpec.transport, FloatFmt.width]; omega
  rw [BitWidthSpec.check, if_neg (not_not.2 hc), if_neg hn]

/-- An FC window has `fc_io_bytes` bytes (R55). -/
@[simp] theorem length_fcWindowOfRaw (p : FloatFormatSpec) (raw : BitVec p.toFloatFmt.width) (b : ByteOrder) :
    (fcWindowOfRaw p raw b).length = p.transport.ioBytes := length_icEncode _ _ _

/-- A native pattern has W bits (R13). -/
theorem width_nativeFmt {w : Nat} (h : w = 32 ∨ w = 64) : (nativeFmt w).width = w := by
  rcases h with rfl | rfl <;> rfl

theorem nativeFmt_ok (w : Nat) : (nativeFmt w).Ok := by
  unfold nativeFmt
  split <;> decide

/-! ## The fields of a pattern -/

theorem toNat_lt_width (p : FloatFmt) (raw : BitVec p.width) : raw.toNat < 2 ^ p.e * p.den * 2 := by
  have := raw.isLt
  rwa [show 2 ^ p.width = 2 ^ p.e * p.den * 2 by rw [FloatFmt.width, FloatFmt.den]; ring] at this

theorem fractionField_eq (p : FloatFmt) (raw : BitVec p.width) : fractionField p raw = raw.toNat % p.den := by
  have h : p.fractionMask < 2 ^ p.width :=
    Nat.lt_of_lt_of_le (Nat.sub_lt (Nat.two_pow_pos _) Nat.one_pos) (Nat.pow_le_pow_right (by omega) (by simp))
  rw [fractionField, BitVec.toNat_and, BitVec.toNat_ofNat, Nat.mod_eq_of_lt h, FloatFmt.fractionMask,
    Nat.and_two_pow_sub_one_eq_mod, FloatFmt.den]

theorem exponentField_eq (p : FloatFmt) (raw : BitVec p.width) :
    exponentField p raw = raw.toNat / p.den % 2 ^ p.e := by
  have h : p.exponentMask < 2 ^ p.width :=
    Nat.lt_of_lt_of_le (Nat.sub_lt (Nat.two_pow_pos _) Nat.one_pos) (Nat.pow_le_pow_right (by omega) (by
      simp [FloatFmt.width]; omega))
  rw [exponentField, BitVec.toNat_and, BitVec.toNat_ofNat, Nat.mod_eq_of_lt h, FloatFmt.exponentMask,
    Nat.and_two_pow_sub_one_eq_mod, BitVec.toNat_ushiftRight, Nat.shiftRight_eq_div_pow, FloatFmt.den]

theorem signField_eq (p : FloatFmt) (raw : BitVec p.width) :
    signField p raw = decide (raw.toNat / (2 ^ p.e * p.den) % 2 = 1) := by
  rw [signField, ← BitVec.testBit_toNat, Nat.testBit_eq_decide_div_mod_eq, FloatFmt.den, ← Nat.pow_add,
    Nat.add_comm]

theorem fractionField_lt (p : FloatFmt) (raw : BitVec p.width) : fractionField p raw < p.den := by
  rw [fractionField_eq]; exact Nat.mod_lt _ p.den_pos

theorem exponentField_le (p : FloatFmt) (raw : BitVec p.width) : exponentField p raw ≤ p.exponentMask := by
  rw [exponentField_eq, FloatFmt.exponentMask]
  have := Nat.mod_lt (raw.toNat / p.den) (Nat.two_pow_pos p.e)
  omega

/-- The number an assembled pattern is (R129). -/
theorem toNat_assembleFloat (p : FloatFmt) (s : Bool) {ex num : Nat} (hex : ex ≤ p.exponentMask) (hnum : num < p.den) :
    (assembleFloat p s ex num).toNat = s.toNat * (2 ^ p.e * p.den) + ex * p.den + num := by
  have hE : 0 < 2 ^ p.e := Nat.two_pow_pos _
  have hex' : ex < 2 ^ p.e := by unfold FloatFmt.exponentMask at hex; omega
  have hsum : ex * p.den + num < 2 ^ p.e * p.den := by
    have := Nat.mul_le_mul_right p.den (Nat.succ_le_of_lt hex')
    rw [Nat.succ_mul] at this
    omega
  have hs : s.toNat < 2 := by cases s <;> simp
  have hw : 2 ^ p.width = 2 ^ p.e * p.den * 2 := by rw [FloatFmt.width, FloatFmt.den]; ring
  have hexn : ex * p.den < 2 ^ p.width := by rw [hw]; omega
  have hden : p.den ≤ 2 ^ p.e * p.den := Nat.le_mul_of_pos_left _ hE
  have hle : 2 ^ p.e ≤ 2 ^ p.e * p.den := Nat.le_mul_of_pos_right _ p.den_pos
  have e1 : ((BitVec.ofBool s).setWidth p.width <<< (p.e + p.f)).toNat = s.toNat * (2 ^ p.e * p.den) := by
    have hs1 : s.toNat < 2 ^ p.width := by rw [hw]; omega
    have hs2 : s.toNat * (2 ^ p.e * p.den) < 2 ^ p.width := by
      rw [hw, Nat.mul_comm]; exact Nat.mul_lt_mul_of_pos_left hs (by omega)
    rw [BitVec.toNat_shiftLeft, BitVec.toNat_setWidth, BitVec.toNat_ofBool, Nat.mod_eq_of_lt hs1,
      Nat.shiftLeft_eq, Nat.pow_add, ← FloatFmt.den, Nat.mod_eq_of_lt hs2]
  have e2 : (BitVec.ofNat p.width (ex &&& p.exponentMask) <<< p.f).toNat = ex * p.den := by
    have h1 : ex < 2 ^ p.width := by rw [hw]; omega
    rw [FloatFmt.exponentMask, Nat.and_two_pow_sub_one_eq_mod, Nat.mod_eq_of_lt hex', BitVec.toNat_shiftLeft,
      BitVec.toNat_ofNat, Nat.mod_eq_of_lt h1, Nat.shiftLeft_eq, ← FloatFmt.den, Nat.mod_eq_of_lt hexn]
  have e3 : (BitVec.ofNat p.width (num &&& p.fractionMask)).toNat = num := by
    rw [FloatFmt.fractionMask, Nat.and_two_pow_sub_one_eq_mod, ← FloatFmt.den, Nat.mod_eq_of_lt hnum,
      BitVec.toNat_ofNat, Nat.mod_eq_of_lt]
    rw [hw]; omega
  have f1 : s.toNat * (2 ^ p.e * p.den) ||| ex * p.den = s.toNat * (2 ^ p.e * p.den) + ex * p.den := by
    have := Nat.two_pow_add_eq_or_of_lt (i := p.e + p.f) (b := ex * p.den) (by
      rw [Nat.pow_add, ← FloatFmt.den]; omega) s.toNat
    rw [Nat.pow_add, ← FloatFmt.den, Nat.mul_comm] at this
    exact this.symm
  have f2 : (s.toNat * (2 ^ p.e * p.den) + ex * p.den) ||| num
      = s.toNat * (2 ^ p.e * p.den) + ex * p.den + num := by
    have := Nat.two_pow_add_eq_or_of_lt (i := p.f) (b := num) hnum (s.toNat * 2 ^ p.e + ex)
    rw [← FloatFmt.den, Nat.mul_comm, Nat.add_mul, Nat.mul_assoc] at this
    exact this.symm
  rw [assembleFloat, BitVec.toNat_or, BitVec.toNat_or, e1, e2, e3, f1, f2]

theorem fractionField_assembleFloat (p : FloatFmt) (s : Bool) {ex num : Nat} (hex : ex ≤ p.exponentMask)
    (hnum : num < p.den) : fractionField p (assembleFloat p s ex num) = num := by
  rw [fractionField_eq, toNat_assembleFloat p s hex hnum, ← Nat.mul_assoc, ← Nat.add_mul, Nat.mul_comm,
    Nat.mul_add_mod, Nat.mod_eq_of_lt hnum]

theorem exponentField_assembleFloat (p : FloatFmt) (s : Bool) {ex num : Nat} (hex : ex ≤ p.exponentMask)
    (hnum : num < p.den) : exponentField p (assembleFloat p s ex num) = ex := by
  have hE : 0 < 2 ^ p.e := Nat.two_pow_pos _
  rw [exponentField_eq, toNat_assembleFloat p s hex hnum, ← Nat.mul_assoc, ← Nat.add_mul, Nat.mul_comm,
    Nat.mul_add_div p.den_pos, Nat.div_eq_of_lt hnum, Nat.add_zero, Nat.mul_comm, Nat.mul_add_mod, Nat.mod_eq_of_lt]
  unfold FloatFmt.exponentMask at hex; omega

theorem signField_assembleFloat (p : FloatFmt) (s : Bool) {ex num : Nat} (hex : ex ≤ p.exponentMask)
    (hnum : num < p.den) : signField p (assembleFloat p s ex num) = s := by
  have hE : 0 < 2 ^ p.e := Nat.two_pow_pos _
  have hex' : ex < 2 ^ p.e := by unfold FloatFmt.exponentMask at hex; omega
  have hsum : ex * p.den + num < 2 ^ p.e * p.den := by
    have := Nat.mul_le_mul_right p.den (Nat.succ_le_of_lt hex')
    rw [Nat.succ_mul] at this
    omega
  rw [signField_eq, toNat_assembleFloat p s hex hnum, Nat.add_assoc, Nat.mul_comm,
    Nat.mul_add_div (by omega), Nat.div_eq_of_lt hsum]
  cases s <;> simp

/-- A pattern is its three fields, put back together. -/
theorem assembleFloat_fields (p : FloatFmt) (raw : BitVec p.width) :
    assembleFloat p (signField p raw) (exponentField p raw) (fractionField p raw) = raw := by
  refine BitVec.eq_of_toNat_eq ?_
  rw [toNat_assembleFloat p _ (exponentField_le p raw) (fractionField_lt p raw), signField_eq, exponentField_eq,
    fractionField_eq]
  have hlt := toNat_lt_width p raw
  have hq : raw.toNat / (2 ^ p.e * p.den) < 2 := by
    have hpos : 0 < 2 ^ p.e * p.den := Nat.mul_pos (Nat.two_pow_pos _) p.den_pos
    rw [Nat.div_lt_iff_lt_mul hpos]
    omega
  have hb : (decide (raw.toNat / (2 ^ p.e * p.den) % 2 = 1)).toNat = raw.toNat / (2 ^ p.e * p.den) := by
    generalize raw.toNat / (2 ^ p.e * p.den) = q at hq ⊢
    have : q = 0 ∨ q = 1 := by omega
    rcases this with h | h <;> simp [h]
  rw [hb, Nat.mul_comm (2 ^ p.e), ← Nat.div_div_eq_div_mul]
  have h1 := Nat.div_add_mod raw.toNat p.den
  have h2 := Nat.div_add_mod (raw.toNat / p.den) (2 ^ p.e)
  calc _ = p.den * (2 ^ p.e * (raw.toNat / p.den / 2 ^ p.e) + raw.toNat / p.den % 2 ^ p.e) + raw.toNat % p.den := by ring
    _ = raw.toNat := by rw [h2, h1]

/-- What an assembled pattern decodes to (R121, R122). -/
theorem floatDecode_assembleFloat (p : FloatFmt) (s : Bool) {ex num : Nat} (hex : ex ≤ p.exponentMask)
    (hnum : num < p.den) :
    floatDecode p (assembleFloat p s ex num) =
      if ex = p.exponentMask then if num = 0 then .inf s else .nan
      else .fin s ((if ex = 0 then 0 else 1) * p.den + num)
        ((ex : Int) - p.bias + 1 - (if ex = 0 then 0 else 1 : Nat) - p.f) := by
  rw [floatDecode, fractionField_assembleFloat p s hex hnum, exponentField_assembleFloat p s hex hnum,
    signField_assembleFloat p s hex hnum]

/-! ## Exact scaling and rounding -/

theorem magnitude_nonneg (m : Nat) (j : Int) : 0 ≤ magnitude m j := by unfold magnitude; positivity

theorem magnitude_pos {m : Nat} (h : 0 < m) (j : Int) : 0 < magnitude m j := by unfold magnitude; positivity

theorem magnitude_eq_zero {m : Nat} {j : Int} : magnitude m j = 0 ↔ m = 0 := by
  unfold magnitude
  simp [zpow_ne_zero]

theorem magnitude_mul_zpow (m : Nat) (j k : Int) : magnitude m j * (2 : ℚ) ^ k = magnitude m (j + k) := by
  unfold magnitude
  rw [mul_assoc, ← zpow_add₀ (by norm_num)]

/-- `x` of R126 is the binary exponent. -/
theorem binaryExponent_spec {m : Nat} (h : 0 < m) (j : Int) :
    (2 : ℚ) ^ binaryExponent m j ≤ magnitude m j ∧ magnitude m j < (2 : ℚ) ^ (binaryExponent m j + 1) := by
  have h2 : (2 : ℚ) ≠ 0 := by norm_num
  have hp : (0 : ℚ) < 2 ^ j := by positivity
  have h1 : 2 ^ Nat.log2 m ≤ m := Nat.log2_self_le (by omega)
  have h3 : m < 2 ^ (Nat.log2 m + 1) := Nat.lt_log2_self
  unfold binaryExponent magnitude
  constructor
  · rw [zpow_add₀ h2, zpow_natCast]
    exact mul_le_mul_of_nonneg_right (by exact_mod_cast h1) hp.le
  · rw [show (Nat.log2 m : Int) + j + 1 = ((Nat.log2 m + 1 : Nat) : Int) + j by push_cast; ring, zpow_add₀ h2, zpow_natCast]
    exact mul_lt_mul_of_pos_right (by exact_mod_cast h3) hp

/-- The rational a `Scaled` stands for. -/
def Scaled.value (t : Scaled) : ℚ := t.floor + (t.rem : ℚ) / t.unit

theorem scaleBy_rem_lt (m : Nat) (j : Int) : (scaleBy m j).rem < (scaleBy m j).unit := by
  cases j with
  | ofNat k => simp [scaleBy]
  | negSucc k => exact Nat.mod_lt _ (Nat.two_pow_pos _)

/-- `scaleBy` is exact. -/
theorem scaleBy_value (m : Nat) (j : Int) : (scaleBy m j).value = magnitude m j := by
  cases j with
  | ofNat k => simp [scaleBy, Scaled.value, magnitude]
  | negSucc k =>
    have hk : ((2 : ℚ) ^ (k + 1)) ≠ 0 := by positivity
    have hd : ((2 ^ (k + 1) * (m / 2 ^ (k + 1)) + m % 2 ^ (k + 1) : Nat) : ℚ) = m := by rw [Nat.div_add_mod]
    simp only [scaleBy, Scaled.value, magnitude, zpow_negSucc]
    push_cast at hd ⊢
    field_simp
    linarith

/-- Rounding moves a value by at most a half, and by exactly a half only onto an even number (R128). -/
theorem roundEven_spec (t : Scaled) (h : t.rem < t.unit) :
    |(roundEven t : ℚ) - t.value| ≤ 1 / 2 ∧ (|(roundEven t : ℚ) - t.value| = 1 / 2 → roundEven t % 2 = 0) := by
  have hu : (0 : ℚ) < t.unit := by exact_mod_cast (by omega : 0 < t.unit)
  have hr : (t.rem : ℚ) < t.unit := by exact_mod_cast h
  have hr0 : (0 : ℚ) ≤ (t.rem : ℚ) / t.unit := by positivity
  have hr1 : (t.rem : ℚ) / t.unit < 1 := (div_lt_one hu).2 hr
  have hhalf : (t.rem : ℚ) / t.unit = 1 / 2 ↔ 2 * t.rem = t.unit := by
    rw [div_eq_div_iff hu.ne' (by norm_num)]
    constructor
    · intro e; have : ((t.rem * 2 : Nat) : ℚ) = ((1 * t.unit : Nat) : ℚ) := by push_cast; exact e
      have := Nat.cast_injective this; omega
    · intro e; have : ((2 * t.rem : Nat) : ℚ) = (t.unit : ℚ) := by exact_mod_cast e
      push_cast at this; linarith
  have hlt : 1 / 2 < (t.rem : ℚ) / t.unit ↔ t.unit < 2 * t.rem := by
    rw [lt_div_iff₀ hu]
    constructor
    · intro e; have : ((t.unit : Nat) : ℚ) < ((2 * t.rem : Nat) : ℚ) := by push_cast; linarith
      exact_mod_cast this
    · intro e; have : ((t.unit : Nat) : ℚ) < ((2 * t.rem : Nat) : ℚ) := by exact_mod_cast e
      push_cast at this; linarith
  unfold roundEven Scaled.value
  split
  · next hup =>
    have hge : 1 / 2 ≤ (t.rem : ℚ) / t.unit := by
      rcases hup with hup | hup
      · exact (hlt.2 hup).le
      · exact (hhalf.2 hup.1).ge
    have e : ((t.floor + 1 : Nat) : ℚ) - (t.floor + (t.rem : ℚ) / t.unit) = 1 - (t.rem : ℚ) / t.unit := by push_cast; ring
    rw [e, abs_of_nonneg (by linarith)]
    refine ⟨by linarith, fun h12 => ?_⟩
    have : 2 * t.rem = t.unit := hhalf.1 (by linarith)
    omega
  · next hdn =>
    have hle : (t.rem : ℚ) / t.unit ≤ 1 / 2 := by
      by_contra hc
      exact hdn (.inl (hlt.1 (not_le.1 hc)))
    have e : (t.floor : ℚ) - (t.floor + (t.rem : ℚ) / t.unit) = -((t.rem : ℚ) / t.unit) := by ring
    rw [e, abs_neg, abs_of_nonneg hr0]
    refine ⟨hle, fun h12 => ?_⟩
    have := hhalf.1 h12
    omega

end Sys2Proof
end

