-- ==== Sys2Proof/Laws/Memory.lean ====
section
/-! SUPPORT. The laws of BUF: reading after an append, and the canonical form (spec/20_memory.md R60 to R63). -/

namespace Sys2Proof.Machine

@[simp] theorem length_cellsFrom (bytes : List Byte) (a : Nat) : (cellsFrom a bytes).length = bytes.length := by
  induction bytes generalizing a with
  | nil => rfl
  | cons b bs ih => simp [cellsFrom, ih]

theorem cellsFrom_fst (bytes : List Byte) (a : Nat) :
    (cellsFrom a bytes).map Prod.fst = List.range' a bytes.length := by
  induction bytes generalizing a with
  | nil => rfl
  | cons b bs ih => simp [cellsFrom, ih, List.range'_succ]

theorem cellsFrom_snd (bytes : List Byte) (a : Nat) : (cellsFrom a bytes).map Prod.snd = bytes := by
  induction bytes generalizing a with
  | nil => rfl
  | cons b bs ih => simp [cellsFrom, ih]

theorem read_cellsFrom (bytes : List Byte) (a i : Nat) :
    Memory.read (cellsFrom a bytes) (a + i) = bytes[i]? := by
  induction bytes generalizing a i with
  | nil => rfl
  | cons b bs ih =>
    cases i with
    | zero => simp [cellsFrom, Memory.read]
    | succ i =>
      have h := ih (a + 1) i
      rw [show a + 1 + i = a + (i + 1) by omega] at h
      simp [cellsFrom, Memory.read, h]

theorem read_cellsFrom_lt (bytes : List Byte) (a b : Nat) (h : b < a) :
    Memory.read (cellsFrom a bytes) b = none := by
  induction bytes generalizing a with
  | nil => rfl
  | cons x xs ih => simp [cellsFrom, Memory.read, Nat.ne_of_gt h, ih (a + 1) (by omega)]

/-- A read of a joined buffer looks at the first part first. -/
theorem read_append_cells (m m' : Memory) (a : Nat) :
    Memory.read (m ++ m') a = (m.read a).or (Memory.read m' a) := by
  induction m with
  | nil => simp [Memory.read]
  | cons c cs ih =>
    simp only [List.cons_append, Memory.read]
    split <;> simp [ih]

@[simp] theorem len_append (m : Memory) (bytes : List Byte) : (m.append bytes).len = m.len + bytes.length := by
  simp [Memory.append, Memory.len]

/-- Nothing that could be read before an append reads otherwise after it. -/
theorem read_append_old {m : Memory} {a : Nat} {b : Byte} (bytes : List Byte) (h : m.read a = some b) :
    (m.append bytes).read a = some b := by
  simp [Memory.append, read_append_cells, h]

/-- Outside the appended window every read is as before. -/
theorem read_append_outside (m : Memory) (bytes : List Byte) (a : Nat)
    (h : a < m.len ∨ m.len + bytes.length ≤ a) : (m.append bytes).read a = m.read a := by
  rw [Memory.append, read_append_cells]
  have hn : Memory.read (cellsFrom m.len bytes) a = none := by
    rcases h with h | h
    · exact read_cellsFrom_lt _ _ _ h
    · obtain ⟨i, rfl⟩ := Nat.exists_eq_add_of_le h
      rw [Nat.add_assoc, read_cellsFrom, List.getElem?_eq_none (by omega)]
  simp [hn]

@[simp] theorem map_snd_append (m : Memory) (bytes : List Byte) :
    (m.append bytes).map Prod.snd = m.map Prod.snd ++ bytes := by
  simp [Memory.append, cellsFrom_snd]

theorem read_eq_none_of_forall {m : Memory} {a : Nat} (h : ∀ c ∈ m, c.1 ≠ a) : m.read a = none := by
  induction m with
  | nil => rfl
  | cons c cs ih =>
    simp only [List.mem_cons, forall_eq_or_imp] at h
    simp [Memory.read, h.1, ih h.2]

/-- A canonical buffer is the cells of its bytes. -/
theorem wf_iff_cells (m : Memory) : m.wf ↔ m = cellsFrom 0 (m.map Prod.snd) := by
  constructor
  · intro h
    refine List.ext_getElem (by simp) fun i h₁ h₂ => Prod.ext ?_ ?_
    · have e := congrArg (·[i]?) h
      have e' := congrArg (·[i]?) (cellsFrom_fst (m.map Prod.snd) 0)
      simp [h₁] at e e'
      simp_all
    · have e := congrArg (·[i]?) (cellsFrom_snd (m.map Prod.snd) 0)
      simp [h₁] at e
      exact e.symm
  · intro h
    have e := cellsFrom_fst (m.map Prod.snd) 0
    rw [← h, ← List.range_eq_range'] at e
    simpa using e

/-- In a canonical buffer every read is the byte at that place, or nothing past the end. -/
theorem read_of_wf {m : Memory} (h : m.wf) (a : Nat) : m.read a = (m.map Prod.snd)[a]? := by
  have e := read_cellsFrom (m.map Prod.snd) 0 a
  rwa [← (wf_iff_cells m).1 h, Nat.zero_add] at e

theorem read_isSome_of_wf {m : Memory} (h : m.wf) {a : Nat} (ha : a < m.len) : (m.read a).isSome := by
  rw [read_of_wf h, List.getElem?_eq_getElem (by simpa [Memory.len] using ha)]
  rfl

/-- The laws of a canonical buffer: an append keeps it. -/
theorem wf_append {m : Memory} (h : m.wf) (bytes : List Byte) : (m.append bytes).wf := by
  unfold Memory.wf at *
  rw [Memory.append, List.map_append, h, cellsFrom_fst]
  simpa [Memory.len, List.range_eq_range'] using List.range'_append (s := 0) (m := m.length) (n := bytes.length) (step := 1)

theorem wf_ofBytes (bytes : List Byte) : (Memory.ofBytes bytes).wf := by
  unfold Memory.wf
  simp [Memory.ofBytes, cellsFrom_fst, List.range_eq_range']

@[simp] theorem map_snd_ofBytes (bytes : List Byte) : (Memory.ofBytes bytes).map Prod.snd = bytes :=
  cellsFrom_snd bytes 0

@[simp] theorem len_ofBytes (bytes : List Byte) : (Memory.ofBytes bytes).len = bytes.length := by
  simp [Memory.ofBytes, Memory.len]

/-- `MemRead(addr, n)` answers the bytes the single reads give. -/
theorem readList_spec {m : Memory} {a n : Nat} {w : List Byte} :
    m.readList a n = some w ↔ w.length = n ∧ ∀ j < n, m.read (a + j) = w[j]? := by
  induction n generalizing a w with
  | zero => simp only [Memory.readList, Option.some.injEq, List.length_eq_zero_iff]; simp [eq_comm]
  | succ n ih =>
    rw [Memory.readList]
    constructor
    · intro h
      split at h
      · next b bs hb hbs =>
        cases h
        obtain ⟨hl, hr⟩ := ih.1 hbs
        refine ⟨by simp [hl], fun j hj => ?_⟩
        cases j with
        | zero => simpa using hb
        | succ j =>
          have := hr j (by omega)
          rw [show a + 1 + j = a + (j + 1) by omega] at this
          simpa using this
      · cases h
    · rintro ⟨hl, hr⟩
      match w, hl with
      | b :: bs, hl =>
        have h0 : m.read a = some b := by simpa using hr 0 (by omega)
        have h1 : m.readList (a + 1) n = some bs := by
          refine ih.2 ⟨by simpa using hl, fun j hj => ?_⟩
          have := hr (j + 1) (by omega)
          rw [show a + (j + 1) = a + 1 + j by omega] at this
          simpa using this
        rw [h0, h1]

theorem readList_of_wf {m : Memory} (h : m.wf) {a n : Nat} (hn : a + n ≤ m.len) :
    m.readList a n = some (((m.map Prod.snd).drop a).take n) := by
  refine readList_spec.2 ⟨by simp [Memory.len] at *; omega, fun j hj => ?_⟩
  rw [read_of_wf h, List.getElem?_take, if_pos hj, List.getElem?_drop]

/-- The window just appended reads back whole. -/
theorem readList_append_new {m : Memory} (h : m.wf) (bytes : List Byte) :
    (m.append bytes).readList m.len bytes.length = some bytes := by
  rw [readList_of_wf (wf_append h bytes) (by simp), map_snd_append]
  simp [Memory.len]

end Sys2Proof.Machine
end

