-- ==== Sys2Proof/Laws/State.lean ====
section
/-! SUPPORT. One lemma per field per update of the state, and per shared operation what it answers. -/

namespace Sys2Proof.Machine

@[simp] theorem complete_cfg (st : Status) (r : Option Bus) (s : State) : (complete st r s).cfg = s.cfg := rfl
@[simp] theorem complete_buf (st : Status) (r : Option Bus) (s : State) : (complete st r s).buf = s.buf := rfl
@[simp] theorem complete_sin (st : Status) (r : Option Bus) (s : State) : (complete st r s).sin = s.sin := rfl
@[simp] theorem complete_sout (st : Status) (r : Option Bus) (s : State) : (complete st r s).sout = s.sout := rfl
@[simp] theorem complete_cmd (st : Status) (r : Option Bus) (s : State) : (complete st r s).cmd = s.cmd := rfl
@[simp] theorem complete_offsetIn (st : Status) (r : Option Bus) (s : State) : (complete st r s).offsetIn = s.offsetIn := rfl
@[simp] theorem complete_valueIn (st : Status) (r : Option Bus) (s : State) : (complete st r s).valueIn = s.valueIn := rfl
@[simp] theorem complete_status (st : Status) (r : Option Bus) (s : State) : (complete st r s).status = some st := rfl
@[simp] theorem complete_result (st : Status) (r : Option Bus) (s : State) : (complete st r s).result = r := rfl
@[simp] theorem complete_pending (st : Status) (r : Option Bus) (s : State) : (complete st r s).pending = s.pending := rfl
@[simp] theorem complete_history (st : Status) (r : Option Bus) (s : State) : (complete st r s).history = s.history ++ [⟨st, r⟩] := rfl
@[simp] theorem complete_freeIx (st : Status) (r : Option Bus) (s : State) : (complete st r s).freeIx = s.freeIx := rfl

@[simp] theorem present_cfg (c : Command) (s : State) : (present c s).cfg = s.cfg := rfl
@[simp] theorem present_buf (c : Command) (s : State) : (present c s).buf = s.buf := rfl
@[simp] theorem present_sin (c : Command) (s : State) : (present c s).sin = s.sin := rfl
@[simp] theorem present_sout (c : Command) (s : State) : (present c s).sout = s.sout := rfl
@[simp] theorem present_cmd (c : Command) (s : State) : (present c s).cmd = c.word := rfl
@[simp] theorem present_offsetIn (c : Command) (s : State) : (present c s).offsetIn = c.offset := rfl
@[simp] theorem present_valueIn (c : Command) (s : State) : (present c s).valueIn = c.value := rfl
@[simp] theorem present_status (c : Command) (s : State) : (present c s).status = s.status := rfl
@[simp] theorem present_result (c : Command) (s : State) : (present c s).result = s.result := rfl
@[simp] theorem present_pending (c : Command) (s : State) : (present c s).pending = s.pending := rfl
@[simp] theorem present_history (c : Command) (s : State) : (present c s).history = s.history := rfl
@[simp] theorem present_freeIx (c : Command) (s : State) : (present c s).freeIx = s.freeIx := rfl

@[simp] theorem clearOutputs_cfg (s : State) : (clearOutputs s).cfg = s.cfg := rfl
@[simp] theorem clearOutputs_buf (s : State) : (clearOutputs s).buf = s.buf := rfl
@[simp] theorem clearOutputs_sin (s : State) : (clearOutputs s).sin = s.sin := rfl
@[simp] theorem clearOutputs_sout (s : State) : (clearOutputs s).sout = s.sout := rfl
@[simp] theorem clearOutputs_cmd (s : State) : (clearOutputs s).cmd = s.cmd := rfl
@[simp] theorem clearOutputs_offsetIn (s : State) : (clearOutputs s).offsetIn = s.offsetIn := rfl
@[simp] theorem clearOutputs_valueIn (s : State) : (clearOutputs s).valueIn = s.valueIn := rfl
@[simp] theorem clearOutputs_status (s : State) : (clearOutputs s).status = none := rfl
@[simp] theorem clearOutputs_result (s : State) : (clearOutputs s).result = none := rfl
@[simp] theorem clearOutputs_pending (s : State) : (clearOutputs s).pending = s.pending := rfl
@[simp] theorem clearOutputs_history (s : State) : (clearOutputs s).history = s.history := rfl
@[simp] theorem clearOutputs_freeIx (s : State) : (clearOutputs s).freeIx = s.freeIx := rfl

@[simp] theorem launch_cfg (g : CoreConfig) (buf sin sout : List Byte) (inputs : List Input) : (launch g buf sin sout inputs).cfg = g := rfl
@[simp] theorem launch_buf (g : CoreConfig) (buf sin sout : List Byte) (inputs : List Input) : (launch g buf sin sout inputs).buf = Memory.ofBytes buf := rfl
@[simp] theorem launch_sin (g : CoreConfig) (buf sin sout : List Byte) (inputs : List Input) : (launch g buf sin sout inputs).sin = sin := rfl
@[simp] theorem launch_sout (g : CoreConfig) (buf sin sout : List Byte) (inputs : List Input) : (launch g buf sin sout inputs).sout = sout := rfl
@[simp] theorem launch_cmd (g : CoreConfig) (buf sin sout : List Byte) (inputs : List Input) : (launch g buf sin sout inputs).cmd = 0 := rfl
@[simp] theorem launch_offsetIn (g : CoreConfig) (buf sin sout : List Byte) (inputs : List Input) : (launch g buf sin sout inputs).offsetIn = 0 := rfl
@[simp] theorem launch_valueIn (g : CoreConfig) (buf sin sout : List Byte) (inputs : List Input) : (launch g buf sin sout inputs).valueIn = 0 := rfl
@[simp] theorem launch_status (g : CoreConfig) (buf sin sout : List Byte) (inputs : List Input) : (launch g buf sin sout inputs).status = none := rfl
@[simp] theorem launch_result (g : CoreConfig) (buf sin sout : List Byte) (inputs : List Input) : (launch g buf sin sout inputs).result = none := rfl
@[simp] theorem launch_pending (g : CoreConfig) (buf sin sout : List Byte) (inputs : List Input) : (launch g buf sin sout inputs).pending = inputs := rfl
@[simp] theorem launch_history (g : CoreConfig) (buf sin sout : List Byte) (inputs : List Input) : (launch g buf sin sout inputs).history = [] := rfl
@[simp] theorem launch_freeIx (g : CoreConfig) (buf sin sout : List Byte) (inputs : List Input) : (launch g buf sin sout inputs).freeIx = 0 := rfl

/-- On a legal instance the command runs. -/
@[simp] theorem onInstance_legal {s : State} (h : s.cfg.Legal) (k : Result) : onInstance s k = k := by
  unfold onInstance; rw [h]

/-- A next state comes only from a legal instance. -/
theorem onInstance_next {s t : State} {k : Result} (h : onInstance s k = .next t) : s.cfg.Legal ∧ k = .next t := by
  unfold onInstance at h
  split at h
  · cases h
  · exact ⟨‹_›, h⟩

@[simp] theorem succeed_next (r : Option Bus) (s t : State) :
    succeed r s = .next t ↔ complete .ok r s = t := by simp [succeed]

@[simp] theorem raise_next (st : Status) (s t : State) : raise st s = .next t ↔ complete st none s = t := by
  simp [raise]

theorem withFetchWord_pending (s : State) (nbits w : Nat) :
    (s.withFetchWord nbits w).pending
      = .command ⟨BitVec.ofNat 8 (w % 2 ^ nbits), s.offsetIn, s.valueIn⟩ :: s.pending := rfl

/-- Presenting a command to the block performs it. -/
theorem step_command {s : State} {c : Command} {rest : List Input} (h : s.pending = .command c :: rest) :
    step s = perform c { s with pending := rest } := by simp [step, h]

theorem step_idle {s : State} (h : s.pending = []) : step s = .next s := by simp [step, h]

theorem step_reset {s : State} {rest : List Input} (h : s.pending = .reset :: rest) :
    step s = resetBlock { s with pending := rest } := by simp [step, h]

theorem step_resetDuring {s : State} {c : Command} {rest : List Input} (h : s.pending = .resetDuring c :: rest) :
    step s = resetDuring { s with pending := rest } (perform c) := by simp [step, h]

/-- What performing a command is, by what its word decodes to. -/
theorem perform_cases (c : Command) (s : State) :
    (∃ i, decode c.word = .command i ∧ perform c s = exec i (present c s))
      ∨ (∃ why, decode c.word = .illegal why ∧ perform c s = illegalCommand (present c s)) := by
  unfold perform
  rw [present_cmd]
  cases h : decode c.word with
  | command i => exact .inl ⟨i, rfl, rfl⟩
  | illegal why => exact .inr ⟨why, rfl, rfl⟩

end Sys2Proof.Machine
end

