-- ==== Sys2Proof/Laws/Exec.lean ====
section
/-! SUPPORT. What each shared operation can answer, and what a command can do: one inversion lemma for `exec`, to be
cited instead of unfolding a meaning. -/

namespace Sys2Proof.Machine

/-! ## The checks of an instance -/

theorem CoreConfig.check_parts {g : CoreConfig} (h : g.Legal) :
    g.ic.check = none ∧ g.fc.check = none ∧ g.maxBuffer ≠ some 0 := by
  unfold CoreConfig.Legal CoreConfig.check at h
  split at h
  · cases h
  split at h
  · cases h
  refine ⟨‹_›, ‹_›, ?_⟩
  unfold CoreConfig.capacityCheck at h
  split at h
  · cases h
  · assumption

/-! ## The shared operations -/

/-- UNPACK's window, when it lies inside a canonical buffer. -/
theorem withBufWindow_inside {n : Nat} {s : State} (hw : s.buf.wf) (hn : s.offsetIn + n ≤ s.buf.len)
    (k : List Byte → Result) :
    withBufWindow n s k = k (((s.buf.map Prod.snd).drop s.offsetIn).take n) := by
  rw [withBufWindow, if_pos hn, readList_of_wf hw hn]

/-- UNPACK's window, when it passes the end of BUF. -/
theorem withBufWindow_outside {n : Nat} {s : State} (hn : s.buf.len < s.offsetIn + n) (k : List Byte → Result) :
    withBufWindow n s k = raise (.bufferRange s.offsetIn n s.buf.len) s := by
  rw [withBufWindow, if_neg (by omega)]

theorem withBufWindow_next {n : Nat} {s t : State} {k : List Byte → Result} (h : withBufWindow n s k = .next t) :
    (∃ w, s.buf.readList s.offsetIn n = some w ∧ k w = .next t)
      ∨ t = complete (.bufferRange s.offsetIn n s.buf.len) none s := by
  unfold withBufWindow at h
  split at h
  · split at h
    · exact .inl ⟨_, ‹_›, h⟩
    · cases h
  · exact .inr ((raise_next _ _ _).1 h).symm

theorem withSinWindow_next {n : Nat} {s t : State} {k : List Byte → State → Result}
    (h : withSinWindow n s k = .next t) :
    (n ≤ s.sin.length ∧ k (s.sin.take n) { s with sin := s.sin.drop n } = .next t)
      ∨ t = complete (.streamShort n s.sin.length) none s := by
  unfold withSinWindow at h
  split at h
  · exact .inl ⟨‹_›, h⟩
  · exact .inr ((raise_next _ _ _).1 h).symm

theorem appendToBuf_next {bytes : List Byte} {s t : State} (h : appendToBuf bytes s = .next t) :
    ((∀ limit ∈ s.cfg.maxBuffer, s.buf.len + bytes.length ≤ limit)
        ∧ t = complete .ok none { s with buf := s.buf.append bytes })
      ∨ ∃ limit ∈ s.cfg.maxBuffer, limit < s.buf.len + bytes.length
        ∧ t = complete (.bufferRange s.buf.len bytes.length limit) none s := by
  unfold appendToBuf at h
  split at h
  · next limit hl =>
    split at h
    · next hfit => exact .inl ⟨by simp [hl, hfit], ((succeed_next _ _ _).1 h).symm⟩
    · next hfit => exact .inr ⟨limit, by simp [hl], by omega, ((raise_next _ _ _).1 h).symm⟩
  · next hl => exact .inl ⟨by simp [hl], ((succeed_next _ _ _).1 h).symm⟩

/-- PACK's append, when it fits. -/
theorem appendToBuf_fits {bytes : List Byte} {s : State}
    (h : ∀ limit ∈ s.cfg.maxBuffer, s.buf.len + bytes.length ≤ limit) :
    appendToBuf bytes s = succeed none { s with buf := s.buf.append bytes } := by
  unfold appendToBuf
  split
  · next limit hl => rw [if_pos (h limit (by simp [hl]))]
  · rfl

theorem appendToSout_next {bytes : List Byte} {s t : State} (h : appendToSout bytes s = .next t) :
    t = complete .ok none { s with sout := s.sout ++ bytes } := ((succeed_next _ _ _).1 h).symm

theorem withFcBytes_next {s t : State} {dflt : Bool} {ord : Endian} {k : List Byte → Result}
    (h : withFcBytes s dflt ord k = .next t) :
    (∃ raw, fcEncoded s = .pattern raw ∧ k (fcWindowOfRaw s.cfg.fc raw (s.cfg.order dflt ord)) = .next t)
      ∨ (fcEncoded s = .overflow ∧ t = complete (.floatOverflow ((fcValueIn s).setWidth 64)) none s) := by
  unfold withFcBytes at h
  split at h
  · exact .inl ⟨_, ‹_›, h⟩
  · exact .inr ⟨‹_›, ((raise_next _ _ _).1 h).symm⟩

/-! ## What a command can do -/

/-- The ways a command that starts in `s` can end. -/
inductive Ends (s : State) : State → Prop where
  /-- It faults, with none of its effect (spec/60_exceptions.md R157). -/
  | faulted (st : Status) (h : st.code ≠ 0) (h' : st.code ≠ 5) : Ends s (complete st none s)
  /-- It answers a value: UNPACK consumes nothing, READ some of SIN. -/
  | answered (v : Bus) (k : Nat) : Ends s (complete .ok (some v) { s with sin := s.sin.drop k })
  /-- It appends to BUF, within the capacity. -/
  | packed (bytes : List Byte) (h : ∀ limit ∈ s.cfg.maxBuffer, s.buf.len + bytes.length ≤ limit) :
      Ends s (complete .ok none { s with buf := s.buf.append bytes })
  /-- It appends to SOUT. -/
  | written (bytes : List Byte) : Ends s (complete .ok none { s with sout := s.sout ++ bytes })

theorem ends_unpack {n : Nat} {s t : State} {r : List Byte → Bus}
    (h : withBufWindow n s (fun w => succeed (some (r w)) s) = .next t) : Ends s t := by
  rcases withBufWindow_next h with ⟨w, -, hk⟩ | rfl
  · rw [← (succeed_next _ _ _).1 hk]
    simpa using Ends.answered (s := s) (r w) 0
  · exact .faulted _ (by simp [Status.code]) (by simp [Status.code])

theorem ends_read {n : Nat} {s t : State} {r : List Byte → Bus}
    (h : withSinWindow n s (fun w s' => succeed (some (r w)) s') = .next t) : Ends s t := by
  rcases withSinWindow_next h with ⟨-, hk⟩ | rfl
  · rw [← (succeed_next _ _ _).1 hk]
    exact .answered _ _
  · exact .faulted _ (by simp [Status.code]) (by simp [Status.code])

theorem ends_pack {bytes : List Byte} {s t : State} (h : appendToBuf bytes s = .next t) : Ends s t := by
  rcases appendToBuf_next h with ⟨hf, rfl⟩ | ⟨_, -, -, rfl⟩
  · exact .packed bytes hf
  · exact .faulted _ (by simp [Status.code]) (by simp [Status.code])

theorem ends_write {bytes : List Byte} {s t : State} (h : appendToSout bytes s = .next t) : Ends s t := by
  rw [appendToSout_next h]
  exact .written bytes

theorem ends_withFcBytes {s t : State} {dflt : Bool} {ord : Endian} {k : List Byte → Result}
    (h : withFcBytes s dflt ord k = .next t) (hk : ∀ bytes, k bytes = .next t → Ends s t) : Ends s t := by
  rcases withFcBytes_next h with ⟨_, -, h'⟩ | ⟨-, rfl⟩
  · exact hk _ h'
  · exact .faulted _ (by simp [Status.code]) (by simp [Status.code])

/-- A command that answers a next state runs on a legal instance and ends in one of the ways of `Ends`. -/
theorem exec_ends {i : Instr} {s t : State} (h : exec i s = .next t) : s.cfg.Legal ∧ Ends s t := by
  cases i with
  | icUnpack d o => exact (onInstance_next h).imp_right ends_unpack
  | icPack d o => exact (onInstance_next h).imp_right ends_pack
  | icRead d o => exact (onInstance_next h).imp_right ends_read
  | icWrite d o => exact (onInstance_next h).imp_right ends_write
  | fcUnpack d o => exact (onInstance_next h).imp_right ends_unpack
  | fcPack d o => exact (onInstance_next h).imp_right fun h => ends_withFcBytes h fun _ => ends_pack
  | fcRead d o => exact (onInstance_next h).imp_right ends_read
  | fcWrite d o => exact (onInstance_next h).imp_right fun h => ends_withFcBytes h fun _ => ends_write

/-- The same for a word, legal or not. -/
theorem perform_ends {c : Command} {s t : State} (h : perform c s = .next t) :
    s.cfg.Legal ∧ Ends (present c s) t := by
  rcases perform_cases c s with ⟨i, -, e⟩ | ⟨_, -, e⟩
  · exact exec_ends (e ▸ h)
  · obtain ⟨hl, h'⟩ := onInstance_next (e ▸ h)
    refine ⟨hl, ?_⟩
    rw [← (raise_next _ _ _).1 h']
    exact .faulted _ (by simp [Status.code]) (by simp [Status.code])

/-- What one step can do: idle, perform a command, or reset. -/
theorem step_cases {s t : State} (h : step s = .next t) :
    (s.pending = [] ∧ t = s)
      ∨ (∃ c rest, s.pending = .command c :: rest ∧ perform c { s with pending := rest } = .next t)
      ∨ (∃ rest, s.pending = .reset :: rest ∧ s.cfg.Legal ∧ t = clearOutputs { s with pending := rest })
      ∨ (∃ c rest u, s.pending = .resetDuring c :: rest ∧ t = clearOutputs u
        ∧ (u = { s with pending := rest, freeIx := s.freeIx + 1 }
          ∨ perform c { s with pending := rest, freeIx := s.freeIx + 1 } = .next u)) := by
  rcases hp : s.pending with _ | ⟨_ | _ | _, rest⟩
  · rw [step_idle hp] at h
    exact .inl ⟨rfl, by cases h; rfl⟩
  · rw [step_command hp] at h
    exact .inr (.inl ⟨_, _, rfl, h⟩)
  · rw [step_reset hp] at h
    obtain ⟨hl, h'⟩ := onInstance_next h
    exact .inr (.inr (.inl ⟨_, rfl, hl, by cases h'; rfl⟩))
  · rw [step_resetDuring hp] at h
    refine .inr (.inr (.inr ?_))
    unfold resetDuring at h
    simp only at h
    split at h
    · split at h
      · cases h
        exact ⟨_, _, _, rfl, rfl, .inr ‹_›⟩
      · cases h
      · cases h
    · obtain ⟨-, h'⟩ := onInstance_next h
      cases h'
      exact ⟨_, _, _, rfl, rfl, .inl rfl⟩

end Sys2Proof.Machine
end

