-- ==== Sys2Proof/Laws/PerInstr.lean ====
section
/-! SUPPORT. Per command: the word an instruction encodes to has the fields its syntax names (spec/30_encoding.md
R85 to R88). -/

namespace Sys2Proof.Laws.WordFields

/-- The fields of the encoded word, one by one. -/
def Statement (i : Instr) : Prop :=
  resField (encode i) = 0b00#2 ∧ defField (encode i) = i.dflt ∧ endianOfBits (endianField (encode i)) = i.ord
    ∧ (unitField (encode i) = (unitOpBits i).getLsbD 2 ∧ opField (encode i) = (unitOpBits i).setWidth 2)

theorem icUnpack (d : Bool) (e : Endian) : Statement (.icUnpack d e) := by
  cases d <;> cases e <;> exact ⟨by decide, by decide, by decide, by decide, by decide⟩

theorem icPack (d : Bool) (e : Endian) : Statement (.icPack d e) := by
  cases d <;> cases e <;> exact ⟨by decide, by decide, by decide, by decide, by decide⟩

theorem icRead (d : Bool) (e : Endian) : Statement (.icRead d e) := by
  cases d <;> cases e <;> exact ⟨by decide, by decide, by decide, by decide, by decide⟩

theorem icWrite (d : Bool) (e : Endian) : Statement (.icWrite d e) := by
  cases d <;> cases e <;> exact ⟨by decide, by decide, by decide, by decide, by decide⟩

theorem fcUnpack (d : Bool) (e : Endian) : Statement (.fcUnpack d e) := by
  cases d <;> cases e <;> exact ⟨by decide, by decide, by decide, by decide, by decide⟩

theorem fcPack (d : Bool) (e : Endian) : Statement (.fcPack d e) := by
  cases d <;> cases e <;> exact ⟨by decide, by decide, by decide, by decide, by decide⟩

theorem fcRead (d : Bool) (e : Endian) : Statement (.fcRead d e) := by
  cases d <;> cases e <;> exact ⟨by decide, by decide, by decide, by decide, by decide⟩

theorem fcWrite (d : Bool) (e : Endian) : Statement (.fcWrite d e) := by
  cases d <;> cases e <;> exact ⟨by decide, by decide, by decide, by decide, by decide⟩

end Sys2Proof.Laws.WordFields
end

