-- ==== Sys2Proof/Tests/Slice0.lean ====
section
/-! SUPPORT. The model's own tests: words and steps whose expected results stand in the spec, and one named witness
for the hypotheses of each statement. -/

namespace Sys2Proof.Tests

open Sys2Proof Sys2Proof.Machine

/-! ## Configurations and launches of the tests (spec/95_test_vectors.md, sections 2.1, 2.4 and 4) -/

/-- IC(32,1,24,1) and FC(5,10,16,32), as in programs P1 and P2. -/
def cfgA : CoreConfig := resetConfig

/-- IC(16,0,13,0) with the default ordering Big, as in program P3. -/
def cfgB : CoreConfig := { resetConfig with ic := ⟨16, false, 13, false⟩, defaultEndian := .big }

/-- IC(16,1,12,1), FC(8,7,16,32), default ordering Network, capacity 6, as in program P4. -/
def cfgP4 : CoreConfig :=
  { resetConfig with
    ic := ⟨16, true, 12, true⟩, fc := ⟨⟨8, 7⟩, 16, 32⟩, defaultEndian := .network, maxBuffer := some 6 }

/-- One step on a launch state with one command presented. -/
def stepOf (g : CoreConfig) (buf sin : List Byte) (word : Byte) (offset : Nat) (value : Bus) : Option State :=
  match step (launch g buf sin [] [.command ⟨word, offset, value⟩]) with
  | .next t => some t
  | .fault _ => none
  | .refused _ => none

/-- What the issuer sees of a step: the answer, BUF, SIN and SOUT. -/
def seen (t : Option State) : Option (List Completion × List Byte × List Byte × List Byte) :=
  t.map fun s => (s.history, s.buf.map Prod.snd, s.sin, s.sout)

/-! ## Well-formedness, decoding and encoding -/

/-- R91: a term that takes the default ordering and names another one is ill formed. -/
theorem test_ill_formed : ¬ (Instr.icUnpack true .big).WellFormed ∧ ¬ (Instr.fcWrite true .network).WellFormed
    ∧ (Instr.icUnpack true .little).WellFormed ∧ (Instr.fcWrite false .network).WellFormed := by decide

/-- `0 0 D e e U o o` (R85) with e = 01, U = 0, o = 00. -/
theorem test_decode_icUnpack : decode 0b00001000#8 = .command (.icUnpack false .big) := by decide

/-- D = 1, U = 0, o = 01. -/
theorem test_decode_icPack : decode 0b00100001#8 = .command (.icPack true .little) := by decide

/-- e = 11, U = 0, o = 10. -/
theorem test_decode_icRead : decode 0b00011010#8 = .command (.icRead false .network) := by decide

/-- e = 10, U = 0, o = 11. -/
theorem test_decode_icWrite : decode 0b00010011#8 = .command (.icWrite false .native) := by decide

/-- e = 00, U = 1, o = 00. -/
theorem test_decode_fcUnpack : decode 0b00000100#8 = .command (.fcUnpack false .little) := by decide

/-- e = 01, U = 1, o = 01: the word 0D of spec/95_test_vectors.md section 3. -/
theorem test_decode_fcPack : decode 0b00001101#8 = .command (.fcPack false .big) := by decide

/-- e = 10, U = 1, o = 10: the word 16. -/
theorem test_decode_fcRead : decode 0b00010110#8 = .command (.fcRead false .native) := by decide

/-- D = 1, U = 1, o = 11: the word 27. -/
theorem test_decode_fcWrite : decode 0b00100111#8 = .command (.fcWrite true .little) := by decide

/-- The illegal words of section 3. -/
theorem test_decode_illegal :
    decode 0x28#8 = .illegal .orderingWithDefault ∧ decode 0x3F#8 = .illegal .orderingWithDefault
      ∧ decode 0x40#8 = .illegal .reservedBits ∧ decode 0x80#8 = .illegal .reservedBits
      ∧ decode 0xC0#8 = .illegal .reservedBits ∧ decode 0xFF#8 = .illegal .reservedBits := by decide

set_option maxRecDepth 4000 in
/-- R94: 40 words are legal. -/
theorem test_decode_counts : (List.range 256).countP (fun w => (decodeTableWord 8 w).isSome) = 40 := by decide

/-- R97: `FC.PACK 1.5` is word 25, `IC.UNPACK.BE` word 08. -/
theorem test_encode : encode (.fcPack true .little) = 0x25#8 ∧ encode (.icUnpack false .big) = 0x08#8 := by decide

/-! ## One step per command -/

/-- Vector IU1: the padding byte AB is ignored. -/
theorem test_icUnpack_big : seen (stepOf cfgA [0xAB, 0xFF, 0xFF, 0xFE] [] 0x08 0 0)
    = some ([⟨.ok, some 0xFFFFFFFE⟩], [0xAB, 0xFF, 0xFF, 0xFE], [], []) := by decide

/-- Program P1, step 7. -/
theorem test_icUnpack_past_end :
    (seen (stepOf cfgA [0xFE, 0xFF, 0xFF, 0x00, 0x00, 0x12, 0x34, 0x56] [] 0x00 6 0)).map Prod.fst
      = some [⟨.bufferRange 6 4 8, none⟩] := by decide

/-- Vector IP3: the value is truncated. -/
theorem test_icPack_truncates : seen (stepOf cfgA [] [] 0x01 0 0x12345678)
    = some ([⟨.ok, none⟩], [0x78, 0x56, 0x34, 0x00], [], []) := by decide

/-- Program P4, step 5: the buffer is at capacity. -/
theorem test_icPack_full : seen (stepOf cfgP4 [0x0F, 0xFD, 0x82, 0x3F, 0x00, 0x08] [] 0x01 0 0)
    = some ([⟨.bufferRange 6 2 6, none⟩], [0x0F, 0xFD, 0x82, 0x3F, 0x00, 0x08], [], []) := by decide

/-- Program P3, step 2: garbage above bit 12 is masked. -/
theorem test_icRead : seen (stepOf cfgB [] [0x34, 0xF2, 0x99] 0x02 0 0)
    = some ([⟨.ok, some 0x1234⟩], [], [0x99], []) := by decide

/-- Program P3, step 3. -/
theorem test_icRead_short : seen (stepOf cfgB [] [0x99] 0x02 0 0)
    = some ([⟨.streamShort 2 1, none⟩], [], [0x99], []) := by decide

/-- Program P3, step 1: the default ordering is Big. -/
theorem test_icWrite_default : seen (stepOf cfgB [] [0x34] 0x23 0 0xE123)
    = some ([⟨.ok, none⟩], [], [0x34], [0x01, 0x23]) := by decide

/-- Program P2, step 8: a subnormal. -/
theorem test_fcUnpack_subnormal :
    (seen (stepOf cfgA [0x00, 0x3E, 0xFC, 0x00, 0x00, 0x7E] [] 0x0C 4 0)).map Prod.fst
      = some [⟨.ok, some 0x36FC0000⟩] := by decide

/-- Vector FU11: a negative NaN gives the canonical one. -/
theorem test_fcUnpack_nan : (seen (stepOf cfgA [0x00, 0xFE] [] 0x04 0 0)).map Prod.fst
    = some [⟨.ok, some 0x7FC00000⟩] := by decide

/-- Vector FP23: a tie rounds to even. -/
theorem test_fcPack_tie : seen (stepOf cfgA [9] [] 0x05 0 0x3F803000)
    = some ([⟨.ok, none⟩], [9, 0x02, 0x3C], [], []) := by decide

/-- Program P4, step 6: the value fault comes before the range fault. -/
theorem test_fcPack_priority :
    seen (stepOf cfgP4 [0x0F, 0xFD, 0x82, 0x3F, 0x00, 0x08] [] 0x25 0 0x7F7FFFFF)
      = some ([⟨.floatOverflow 0x7F7FFFFF, none⟩], [0x0F, 0xFD, 0x82, 0x3F, 0x00, 0x08], [], []) := by decide

/-- The example of R135. -/
theorem test_fcRead_nan : seen (stepOf cfgA [] [0x7C, 0x01] 0x0E 0 0)
    = some ([⟨.ok, some 0x7FC00000⟩], [], [], []) := by decide

/-- Vectors FU22 and FU28, under the default NATIVE_ROUND: an inexact native result, and one that overflows. -/
theorem test_fcRead_rounds :
    (seen (stepOf { cfgA with fc := ⟨⟨11, 52⟩, 64, 32⟩ } []
      [0x3F, 0xF0, 0x00, 0x00, 0x30, 0x00, 0x00, 0x00] 0x0E 0 0)).map Prod.fst
      = some [⟨.ok, some 0x3F800002⟩]
    ∧ (seen (stepOf { cfgA with fc := ⟨⟨11, 52⟩, 64, 32⟩ } []
      [0x47, 0xEF, 0xFF, 0xFF, 0xF0, 0x00, 0x00, 0x00] 0x0E 0 0)).map Prod.fst
      = some [⟨.ok, some 0x7F800000⟩] := by decide

/-- The example of R136. -/
theorem test_fcWrite_inf : seen (stepOf cfgA [] [] 0x0F 0 0xFF800000)
    = some ([⟨.ok, none⟩], [], [], [0xFC, 0x00]) := by decide

/-- Vector FP14: a flush keeps the sign. -/
theorem test_fcWrite_flush : seen (stepOf cfgA [] [] 0x07 0 0xB2800000)
    = some ([⟨.ok, none⟩], [], [], [0x00, 0x80]) := by decide

/-- Program P3, steps 4 and 5. -/
theorem test_illegal_words : (seen (stepOf cfgB [] [] 0x40 0 0)).map Prod.fst = some [⟨.illegalCommand 0x40, none⟩]
    ∧ (seen (stepOf cfgB [] [] 0x28 0 0)).map Prod.fst = some [⟨.illegalCommand 0x28, none⟩] := by decide

/-- R173: a reset between commands leaves BUF, SIN and SOUT alone. -/
theorem test_reset : (match step { launch cfgA [1] [2] [3] [.reset] with status := some .ok, result := some 7 } with
    | .next t => seen (some t) == some ([], [1], [2], [3]) && t.status == none && t.result == none
    | .fault _ => false
    | .refused _ => false) = true := by decide

/-! ## Elaboration -/

/-- What the system of programs P1 and P2 supplies, its ALIGNED left to DEFAULT_ALIGNED. -/
def argsA : ElabArgs where
  nativeSource := .probe .little
  defaultEndian := some .little
  defaultAligned := true
  c := 32
  signed := true
  n := 24
  aligned := none
  e := 5
  f := 10
  t := 16
  w := 32
  maxBuffer := none
  nativeRound := .rneOnce
  nanBits := .canonical

/-- Whether elaboration refuses, and why. -/
def refusal (a : ElabArgs) : Option ElabError :=
  match elaborate a with
  | .ok _ => none
  | .error why => some why

/-- R10, R175: an omitted ALIGNED takes DEFAULT_ALIGNED. -/
theorem test_elaborate : (match elaborate argsA with
    | .ok g => g == { resetConfig with defaultAligned := true }
    | .error _ => false) = true := by decide

/-- R57, R58: each check refuses. -/
theorem test_elaborate_refuses :
    refusal { argsA with c := 24 } = some .containerWidth ∧ refusal { argsA with n := 33 } = some .valueBits
      ∧ refusal { argsA with n := 0 } = some .valueBits ∧ refusal { argsA with e := 0 } = some .exponentBits
      ∧ refusal { argsA with f := 0 } = some .fractionBits ∧ refusal { argsA with t := 24 } = some .transportWidth
      ∧ refusal { argsA with f := 11 } = some .totalBits ∧ refusal { argsA with w := 80 } = some .nativeWidth
      ∧ refusal { argsA with nativeSource := .ambiguous } = some .nativeEndian
      ∧ refusal { argsA with nativeSource := .unset } = some .nativeEndian
      ∧ refusal { argsA with defaultEndian := none } = some .defaultEndian := by decide

/-! ## Witnesses: for each statement with hypotheses, a state and operands that meet them -/

/-- The state of a launch of the first configuration, with a buffer of eight bytes and a stream of four. -/
def full (inputs : List Input) : State := launch cfgA [1, 2, 3, 4, 5, 6, 7, 8] [9, 10, 11, 12] [13] inputs

/-- The same under the capacity of program P4, with four bytes in the buffer. -/
def tight (inputs : List Input) : State := launch cfgP4 [1, 2, 3, 4] [9] [] inputs

/-- The end of a command, where it is a next state. -/
def ended (i : Instr) (s : State) : Option State :=
  match exec i s with
  | .next t => some t
  | .fault _ => none
  | .refused _ => none

theorem test_wit_TableWordsDecode : decode 0x1B#8 = .command (.icWrite false .network)
    ∧ decode 0x27#8 = .command (.fcWrite true .little) := by decide

theorem test_wit_DecodeInvertsEncode :
    (Instr.fcRead true .little).WellFormed ∧ (Instr.fcRead false .network).WellFormed := by decide

theorem test_wit_EveryMeaningHasOneWord : decode 0x27#8 = .command (.fcWrite true .little) := by decide

theorem test_wit_ReservedBits : (full [.command ⟨0x40, 0, 0⟩]).cfg.Legal
    ∧ (full [.command ⟨0x40, 0, 0⟩]).pending = .command ⟨0x40, 0, 0⟩ :: []
    ∧ (0x40#8).extractLsb' 6 2 ≠ 0b00#2 ∧ (0xFF#8).extractLsb' 6 2 ≠ 0b00#2 := by decide

theorem test_wit_OrderingWithDefault : (full [.command ⟨0x28, 0, 0⟩]).cfg.Legal
    ∧ (full [.command ⟨0x28, 0, 0⟩]).pending = .command ⟨0x28, 0, 0⟩ :: []
    ∧ (0x28#8).getLsbD 5 = true ∧ (0x28#8).extractLsb' 3 2 ≠ 0b00#2 ∧ (0x3F#8).extractLsb' 3 2 ≠ 0b00#2
    ∧ decode 0x20#8 = .command (.icUnpack true .little) := by decide

theorem test_wit_StepRuns : (full [.command ⟨0x08, 4, 0⟩]).pending = .command ⟨0x08, 4, 0⟩ :: []
    ∧ decode 0x08#8 = .command (.icUnpack false .big) := by decide

theorem test_wit_Reset : (full [.reset]).cfg.Legal ∧ (full [.reset]).pending = .reset :: [] := by decide

theorem test_wit_ResetDuring : (full [.resetDuring ⟨0x01, 0, 5⟩]).Ready
    ∧ (full [.resetDuring ⟨0x01, 0, 5⟩]).pending = .resetDuring ⟨0x01, 0, 5⟩ :: [] := by decide

theorem test_wit_ElaborationRefused : (∃ g, elaborate argsA = .ok g)
    ∧ ({ full [] with cfg := { cfgA with ic := ⟨24, true, 24, true⟩ } } : State).cfg.check = some .containerWidth :=
  ⟨⟨_, rfl⟩, by decide⟩

/-- The second pair stands at the edges: N = C, 1+E+F = T, E = F = 1. -/
theorem test_wit_ElaborationAccepts :
    (argsA.nativeSource = .override .little ∨ argsA.nativeSource = .probe .little)
      ∧ argsA.defaultEndian = some .little ∧ argsA.c ∈ [8, 16, 32, 64] ∧ 1 ≤ argsA.n ∧ argsA.n ≤ argsA.c
      ∧ 1 ≤ argsA.e ∧ 1 ≤ argsA.f ∧ argsA.t ∈ [8, 16, 32, 64] ∧ 1 + argsA.e + argsA.f ≤ argsA.t
      ∧ argsA.w ∈ [32, 64] ∧ argsA.maxBuffer ≠ some 0
      ∧ refusal { argsA with n := 32, e := 1, f := 1, t := 8, w := 64, maxBuffer := some 1 } = none := by decide

theorem test_wit_Launch : cfgP4.Legal ∧ ∀ limit ∈ cfgP4.maxBuffer, [1, 2, 3, 4, 5, 6].length ≤ limit := by decide

/-- A state whose ports show the last command of its record. -/
theorem test_wit_StepKeepsInvariant :
    ({ tight [.command ⟨0x01, 0, 5⟩] with
        status := some .ok, result := some 7, history := [⟨.ok, some 7⟩] } : State).Inv
      ∧ ∃ t, step { tight [.command ⟨0x01, 0, 5⟩] with
        status := some .ok, result := some 7, history := [⟨.ok, some 7⟩] } = .next t :=
  ⟨⟨by decide, by decide, by decide, Or.inr ⟨.ok, by decide, by decide⟩, by decide⟩, ⟨_, rfl⟩⟩

theorem test_wit_StepAlwaysAnswers : (full [.command ⟨0x00, 0, 0⟩]).Inv :=
  ⟨by decide, by decide, by decide, Or.inl (by decide), by decide⟩

theorem test_wit_ConfigurationNeverChanges : ∃ t, step (full [.command ⟨0x06, 0, 0⟩]) = .next t := ⟨_, rfl⟩

theorem test_wit_BufferBytes : (∃ t, step (full [.command ⟨0x01, 0, 5⟩]) = .next t)
    ∧ (full [.command ⟨0x01, 0, 5⟩]).buf.read 7 = some 8 := ⟨⟨_, rfl⟩, by decide⟩

theorem test_wit_Streams : (∃ t, step (full [.command ⟨0x02, 0, 0⟩]) = .next t)
    ∧ ∃ t, step (full [.command ⟨0x03, 0, 0⟩]) = .next t := ⟨⟨_, rfl⟩, ⟨_, rfl⟩⟩

theorem test_wit_FaultedCommand : ∃ t st, exec (.fcRead false .little) (launch cfgA [] [1] [] []) = .next t
    ∧ t.status = some st ∧ st.code ≠ 0 := ⟨_, _, rfl, rfl, by decide⟩

theorem test_wit_FaultedWord : ∃ t st, perform ⟨0x40, 0, 0⟩ (full []) = .next t ∧ t.status = some st ∧ st.code ≠ 0 :=
  ⟨_, _, rfl, rfl, by decide⟩

theorem test_wit_ResultOnly : (∃ t v, exec (.icUnpack true .little) (full []) = .next t ∧ t.result = some v)
    ∧ (∃ t v, exec (.fcRead false .big) (full []) = .next t ∧ t.result = some v)
    ∧ decode 0x38#8 = .illegal .orderingWithDefault ∧ ∃ t, perform ⟨0x38, 0, 0⟩ (full []) = .next t :=
  ⟨⟨_, _, rfl, rfl⟩, ⟨_, _, rfl, rfl⟩, by decide, ⟨_, rfl⟩⟩

/-- Each code of each command is reached. -/
theorem test_wit_StatusCodes :
    [(Instr.icUnpack false .big, full []), (.icUnpack false .big, launch cfgA [] [] [] []), (.icPack true .little, full []),
      (.icPack true .little, launch cfgP4 [1, 2, 3, 4, 5] [] [] []), (.icRead false .big, full []),
      (.icRead false .big, launch cfgA [] [] [] []), (.icWrite false .big, full [])].map
        (fun p => (ended p.1 p.2).bind fun t => t.status.map Status.code)
      = [some 0, some 2, some 0, some 2, some 0, some 3, some 0]
    ∧ [(Instr.fcUnpack false .big, full []), (.fcUnpack false .big, launch cfgA [] [] [] []), (.fcPack true .little, full []),
      (.fcPack true .little, launch cfgP4 [1, 2, 3, 4, 5] [] [] []),
      (.fcPack true .little, { full [] with valueIn := 0x477FF000 }), (.fcRead false .big, full []),
      (.fcRead false .big, launch cfgA [] [] [] []), (.fcWrite false .big, full []),
      (.fcWrite false .big, { full [] with valueIn := 0x477FF000 })].map
        (fun p => (ended p.1 p.2).bind fun t => t.status.map Status.code)
      = [some 0, some 2, some 0, some 2, some 4, some 0, some 3, some 0, some 4] := by decide

theorem test_wit_CommandFrame : (∃ t, exec (.icPack false .big) (full []) = .next t)
    ∧ (∃ t, exec (.fcRead false .big) (full []) = .next t) ∧ ∃ t, exec (.fcWrite false .big) (full []) = .next t :=
  ⟨⟨_, rfl⟩, ⟨_, rfl⟩, ⟨_, rfl⟩⟩

/-- The offsets next to the window on either side. -/
theorem test_wit_PackFrame : (∃ t, exec (.icPack false .big) (full []) = .next t)
    ∧ (∃ t, exec (.fcPack false .big) (full []) = .next t) ∧ 7 < (full []).buf.len
    ∧ (full []).buf.len + (full []).cfg.ic.ioBytes ≤ 12 ∧ (full []).buf.len + (full []).cfg.fc.transport.ioBytes ≤ 10 :=
  ⟨⟨_, rfl⟩, ⟨_, rfl⟩, by decide, by decide, by decide⟩

theorem test_wit_CommandDepends :
    ({ full [] with sout := [], history := [⟨.ok, none⟩], status := some .ok } : State).cfg = (full []).cfg
      ∧ ({ full [] with sout := [], history := [⟨.ok, none⟩], status := some .ok } : State).buf = (full []).buf
      ∧ ({ full [] with sout := [], history := [⟨.ok, none⟩], status := some .ok } : State).sin = (full []).sin
      ∧ (∃ t, perform ⟨0x0B, 0, 5⟩ (full []) = .next t) ∧ ∃ t, perform ⟨0x40, 0, 5⟩ (full []) = .next t :=
  ⟨rfl, rfl, rfl, ⟨_, rfl⟩, ⟨_, rfl⟩⟩

/-- The last legal offset (R104). -/
theorem test_wit_IcUnpack : ({ full [] with offsetIn := 4 } : State).Ready
    ∧ 4 + (full []).cfg.ic.ioBytes ≤ (full []).buf.len := by decide

/-- The first illegal offset of each unit. -/
theorem test_wit_UnpackPastEnd : (full []).cfg.Legal ∧ (full []).buf.len < 5 + (full []).cfg.ic.ioBytes
    ∧ (full []).buf.len < 7 + (full []).cfg.fc.transport.ioBytes := by decide

/-- A window that fills the buffer exactly. -/
theorem test_wit_IcPack : (tight []).Ready
    ∧ ∀ limit ∈ (tight []).cfg.maxBuffer, (tight []).buf.len + (tight []).cfg.ic.ioBytes ≤ limit := by decide

/-- A window one byte too long. -/
theorem test_wit_PackPastCapacity : (launch cfgP4 [1, 2, 3, 4, 5] [] [] []).cfg.Legal ∧ cfgP4.maxBuffer = some 6
    ∧ 6 < (launch cfgP4 [1, 2, 3, 4, 5] [] [] []).buf.len + cfgP4.ic.ioBytes
    ∧ 6 < (launch cfgP4 [1, 2, 3, 4, 5] [] [] []).buf.len + cfgP4.fc.transport.ioBytes
    ∧ fcEncoded (launch cfgP4 [1, 2, 3, 4, 5] [] [] []) ≠ .overflow := by decide

/-- A stream with exactly one window. -/
theorem test_wit_IcRead : (full []).cfg.Legal ∧ (full []).sin = [9, 10, 11, 12] ++ []
    ∧ [9, 10, 11, 12].length = (full []).cfg.ic.ioBytes := by decide

/-- A stream one byte short, for each unit. -/
theorem test_wit_ShortRead : (launch cfgA [] [1, 2, 3] [] []).cfg.Legal
    ∧ (launch cfgA [] [1, 2, 3] [] []).sin.length < cfgA.ic.ioBytes
    ∧ (launch cfgA [] [1] [] []).sin.length < cfgA.fc.transport.ioBytes := by decide

theorem test_wit_IcWrite : (tight []).cfg.Legal := by decide

theorem test_wit_FcUnpack : ({ full [] with offsetIn := 6 } : State).Ready
    ∧ 6 + (full []).cfg.fc.transport.ioBytes ≤ (full []).buf.len := by decide

theorem test_wit_FcPack : (tight []).Ready
    ∧ floatEncode (tight []).cfg.fc.toFloatFmt
        (nativeDecode (tight []).cfg.fc.w ((0x3F818000#64).setWidth (nativeFmt (tight []).cfg.fc.w).width))
      = .pattern (0x3F82#16)
    ∧ ∀ limit ∈ (tight []).cfg.maxBuffer, (tight []).buf.len + (tight []).cfg.fc.transport.ioBytes ≤ limit := by decide

theorem test_wit_FcRead : (full []).cfg.Legal ∧ (full []).sin = [9, 10] ++ [11, 12]
    ∧ [9, 10].length = (full []).cfg.fc.transport.ioBytes := by decide

theorem test_wit_FcWrite : (full []).cfg.Legal
    ∧ floatEncode (full []).cfg.fc.toFloatFmt
        (nativeDecode (full []).cfg.fc.w ((0x3F803000#64).setWidth (nativeFmt (full []).cfg.fc.w).width))
      = .pattern (0x3C02#16) := by decide

theorem test_wit_FaultPriority : (tight [.command ⟨0x28, 99, 0⟩]).cfg.Legal
    ∧ (tight [.command ⟨0x28, 99, 0⟩]).pending = .command ⟨0x28, 99, 0⟩ :: []
    ∧ decode 0x28#8 = .illegal .orderingWithDefault
    ∧ fcEncoded { launch cfgP4 [1, 2, 3, 4, 5] [] [] [] with valueIn := 0x7F7FFFFF } = .overflow := by decide

/-- N = C, and N = 1 in both alignments; a transport that fills T, and one of three bits. -/
theorem test_wit_DerivedWindow : (⟨64, true, 64, true⟩ : BitWidthSpec).check = none
    ∧ (⟨64, true, 1, true⟩ : BitWidthSpec).check = none ∧ (⟨8, false, 1, false⟩ : BitWidthSpec).check = none
    ∧ (⟨⟨11, 52⟩, 64, 64⟩ : FloatFormatSpec).check = none ∧ (⟨⟨1, 1⟩, 8, 32⟩ : FloatFormatSpec).check = none := by decide

theorem test_wit_DecodeExtends : (⟨16, false, 13, false⟩ : BitWidthSpec).check = none
    ∧ (⟨64, true, 64, false⟩ : BitWidthSpec).check = none ∧ (⟨32, true, 24, true⟩ : BitWidthSpec).check = none := by decide

/-- Program P1's −2, and 8191 for the unsigned codec of P3. -/
theorem test_wit_IntegerRoundTrip :
    (⟨32, true, 24, true⟩ : BitWidthSpec).check = none
      ∧ ((0xFFFFFFFE#32).setWidth 24).signExtend 32 = 0xFFFFFFFE#32
      ∧ (⟨16, false, 13, false⟩ : BitWidthSpec).check = none
      ∧ 0x1FFF#16 &&& (⟨16, false, 13, false⟩ : BitWidthSpec).valueMask = 0x1FFF#16 := by decide

theorem test_wit_PackIgnoresGarbage : (⟨16, false, 13, false⟩ : BitWidthSpec).check = none
    ∧ ∀ i < 13, (0xE123#16).getLsbD i = (0x0123#16).getLsbD i := by decide

/-- The window of scenario S3b, and a codec with N = C. -/
theorem test_wit_SignBit :
    (⟨32, true, 24, true⟩ : BitWidthSpec).check = none
      ∧ (icMask ⟨32, true, 24, true⟩ (icAssemble ⟨32, true, 24, true⟩ [0xFF, 0xFF, 0xFF, 0x00] .little)).getLsbD 23 = true
      ∧ (⟨8, true, 8, false⟩ : BitWidthSpec).check = none
      ∧ (icMask ⟨8, true, 8, false⟩ (icAssemble ⟨8, true, 8, false⟩ [0x80] .big)).getLsbD 7 = true := by decide

theorem test_wit_Endianness : (⟨32, true, 24, true⟩ : BitWidthSpec).check = none
    ∧ [0xFE, 0xFF, 0xFF, 0x00].length = (⟨32, true, 24, true⟩ : BitWidthSpec).ioBytes
    ∧ (⟨⟨8, 10⟩, 32, 32⟩ : FloatFormatSpec).check = none
    ∧ [0x00, 0xFC, 0x81].length = (⟨⟨8, 10⟩, 32, 32⟩ : FloatFormatSpec).transport.ioBytes := by decide

/-- The windows of test_wit_DecodeIgnores serve the second clause. -/
theorem test_wit_SignProbe : (⟨16, true, 7, true⟩ : BitWidthSpec).check = none := by decide

/-- Two windows of the codec Cc that differ in the padding byte and in the garbage bit 7. -/
theorem test_wit_DecodeIgnores : (⟨16, true, 7, true⟩ : BitWidthSpec).check = none
    ∧ ∀ i < 7, (([0x40, 0x55] : List Byte).getD (pos 0 2 (i / 8) .little) 0).getLsbD (i % 8)
      = (([0xC0, 0x00] : List Byte).getD (pos 0 2 (i / 8) .little) 0).getLsbD (i % 8) := by decide

theorem test_wit_AlignedEncoding : (⟨64, true, 40, true⟩ : BitWidthSpec).check = none := by decide

/-- The first and the last byte of the window of A. -/
theorem test_wit_Window : (⟨32, true, 24, true⟩ : BitWidthSpec).check = none
    ∧ 0 < (⟨32, true, 24, true⟩ : BitWidthSpec).ioBytes ∧ 3 < (⟨32, true, 24, true⟩ : BitWidthSpec).ioBytes := by decide

theorem test_wit_IcResultRange : (∃ t v, exec (.icUnpack false .little) (full []) = .next t ∧ t.result = some v)
    ∧ ∃ t v, exec (.icRead false .little) (full []) = .next t ∧ t.result = some v := ⟨⟨_, _, rfl, rfl⟩, ⟨_, _, rfl, rfl⟩⟩

theorem test_wit_IcPackThenUnpack : (tight []).Ready
    ∧ ∀ limit ∈ (tight []).cfg.maxBuffer, (tight []).buf.len + (tight []).cfg.ic.ioBytes ≤ limit := by decide

/-! ## Witnesses of the float laws -/

/-- binary16. -/
abbrev half : FloatFmt := ⟨5, 10⟩

/-- An infinity and a NaN of binary16. -/
theorem test_wit_AllOnes : half.Ok ∧ (0xFC00#16).toNat / 2 ^ 10 % 2 ^ 5 = 2 ^ 5 - 1 ∧ (0xFC00#16).toNat % 2 ^ 10 = 0
    ∧ (0x7C01#16).toNat / 2 ^ 10 % 2 ^ 5 = 2 ^ 5 - 1 ∧ (0x7C01#16).toNat % 2 ^ 10 ≠ 0 := by decide

/-- The largest subnormal and the smallest normal of binary16. -/
theorem test_wit_FiniteDecode : half.Ok ∧ (0x03FF#16).toNat / 2 ^ 10 % 2 ^ 5 = 0
    ∧ (0x0400#16).toNat / 2 ^ 10 % 2 ^ 5 = 1 := by decide

theorem test_wit_SpecialValues : half.Ok ∧ (⟨1, 1⟩ : FloatFmt).Ok := by decide

/-- Vectors FP22 and FP23 are ties; 1 is a value of the format. -/
theorem test_wit_EncodeRounds : half.Ok ∧ floatEncode half (.fin false 2049 (-11)) = .pattern (0x3C00#16)
    ∧ floatEncode half (.fin false 2051 (-11)) = .pattern (0x3C02#16) ∧ half.Holds 1 :=
  ⟨by decide, by decide, by decide, ⟨0x3C00#16, false, 1024, -10, by decide, by norm_num [magnitude]⟩⟩

/-- Vectors FP5 and FP6 stand on the two sides of the threshold of binary16, FP44 and FP45 for E = 1. -/
theorem test_wit_OverflowThreshold : half.Ok ∧ (⟨1, 2⟩ : FloatFmt).Ok ∧ floatEncode half (.fin false 65520 0) = .overflow
    ∧ floatEncode half (.fin false 65519 0) = .pattern (0x7BFF#16)
    ∧ floatEncode ⟨1, 2⟩ (.fin false 7 (-2)) = .overflow ∧ floatEncode ⟨1, 2⟩ (.fin false 3 (-1)) = .pattern (0x3#4) := by decide

theorem test_wit_FiniteNeverSaturates : half.Ok ∧ floatEncode half (.inf true) = .pattern (0xFC00#16)
    ∧ floatEncode half .nan = .pattern (0x7E00#16) ∧ (2 : ℚ) ^ (half.exponentMax + 1) ≤ magnitude 1 16 :=
  ⟨by decide, by decide, by decide, by
    rw [show half.exponentMax = 15 from by decide]; norm_num [magnitude]⟩

/-- A subnormal, a zero and an infinity. -/
theorem test_wit_FloatPatternRoundTrip : half.Ok ∧ floatDecode half (0x0001#16) ≠ .nan
    ∧ floatDecode half (0x8000#16) ≠ .nan ∧ floatDecode half (0xFC00#16) ≠ .nan := by decide

/-- 1, as the FC decodes it from binary16 and as binary32 holds it. -/
theorem test_wit_NativeEncodeIsExact : (floatDecode half (0x3C00#16)).IsFin false 1
    ∧ (nativeDecode 32 (0x3F800000#32)).IsFin false 1 :=
  ⟨⟨1024, -10, by decide, by norm_num [magnitude]⟩, ⟨8388608, -23, by decide, by norm_num [magnitude]⟩⟩

/-- The values of vectors FU21 (a tie) and FU28 (the native overflow threshold), and -2^-997, an underflow as in FU25. -/
theorem test_wit_NativeRound :
    floatEncode (nativeFmt 32) (.fin false 16777217 (-24)) = .pattern (0x3F800000#32)
      ∧ floatEncode (nativeFmt 32) (.fin true 1 (-997)) = .pattern (0x80000000#32)
      ∧ floatEncode (nativeFmt 32) (.fin false 33554431 103) = .overflow := by decide

theorem test_wit_NarrowFormats : half.Ok ∧ half.e ≤ (nativeFmt 32).e ∧ half.f ≤ (nativeFmt 32).f
    ∧ (floatDecode half (0x3C00#16)).IsFin false 1 :=
  ⟨by decide, by decide, by decide, ⟨1024, -10, by decide, by norm_num [magnitude]⟩⟩

/-- A negative signalling NaN (vector FP21). -/
theorem test_wit_NaN : half.Ok ∧ nativeDecode 32 (0xFF800001#32) = .nan := by decide

/-- Vector FP13 flushes; the other case is zero itself. -/
theorem test_wit_SignedZero : half.Ok ∧ magnitude 1 (-26) < (2 : ℚ) ^ half.minNormalizedExponent :=
  ⟨by decide, by rw [show half.minNormalizedExponent = -25 from by decide]; norm_num [magnitude]⟩

/-- 1, −∞ and a NaN, on a machine whose FC is binary16. -/
theorem test_wit_FcPackThenUnpack : ({ full [] with valueIn := 0x3F800000 } : State).Ready
    ∧ (0x3F800000 : Bus) = (0x3F800000#32).setWidth 64
    ∧ (∀ sg q, (nativeDecode 32 (0x3F800000#32)).IsFin sg q → half.Holds q)
    ∧ nativeDecode 32 (0xFF800000#32) = .inf true ∧ nativeDecode 32 (0x7FC00001#32) = .nan := by
  refine ⟨by decide, by decide, ?_, by decide, by decide⟩
  rintro sg q ⟨m, j, h, rfl⟩
  rw [show nativeDecode 32 (0x3F800000#32) = .fin false 8388608 (-23) from by decide] at h
  injection h with _ hm hj
  subst hm hj
  exact ⟨0x3C00#16, false, 1024, -10, by decide, by norm_num [magnitude]⟩

/-! ## The host's view -/

/-- A word of the table runs as the first command after reset. -/
theorem test_first_command : decodeTableWord 8 0x01 = some (.icPack false .little)
    ∧ (match step (State.reset.withFetchWord 8 0x01) with
      | .next t => seen (some t)
      | .fault _ => none
      | .refused _ => none) = some ([⟨.ok, none⟩], [0, 0, 0, 0], [], []) := by decide

end Sys2Proof.Tests
end

/-! PROOFS. A command's answer and changes are a function of its inputs (spec/00_scope.md R29): `exec` is run beside
itself from a second state that shares the inputs and nothing else, one lemma per shared operation. -/

namespace Sys2Proof.Machine

/-! ## Two states with the same inputs -/

/-- `u` with everything a command may look at taken from `s`: CFG, BUF, SIN and the input ports. SOUT, the output
ports and the issuer's side stay those of `u`. -/
def State.withInputsOf (u s : State) : State :=
  { u with cfg := s.cfg, buf := s.buf, sin := s.sin, cmd := s.cmd, offsetIn := s.offsetIn, valueIn := s.valueIn }

@[simp] theorem withInputsOf_cfg (u s : State) : (u.withInputsOf s).cfg = s.cfg := rfl
@[simp] theorem withInputsOf_buf (u s : State) : (u.withInputsOf s).buf = s.buf := rfl
@[simp] theorem withInputsOf_sin (u s : State) : (u.withInputsOf s).sin = s.sin := rfl
@[simp] theorem withInputsOf_sout (u s : State) : (u.withInputsOf s).sout = u.sout := rfl
@[simp] theorem withInputsOf_cmd (u s : State) : (u.withInputsOf s).cmd = s.cmd := rfl
@[simp] theorem withInputsOf_offsetIn (u s : State) : (u.withInputsOf s).offsetIn = s.offsetIn := rfl
@[simp] theorem withInputsOf_valueIn (u s : State) : (u.withInputsOf s).valueIn = s.valueIn := rfl

/-- Presenting one command to two blocks with the same CFG, BUF and SIN gives them the same inputs. -/
theorem present_eq_withInputsOf {s s' : State} (c : Command) (hcfg : s'.cfg = s.cfg) (hbuf : s'.buf = s.buf)
    (hsin : s'.sin = s.sin) : present c s' = s'.withInputsOf (present c s) := by
  simp only [present, State.withInputsOf, ← hcfg, ← hbuf, ← hsin]

/-! ## Commands that answer alike -/

/-- The end `t` of a command begun in `s` and the end `t'` of one begun in `s'` show the same answer and changes. -/
structure SameEffect (s s' t t' : State) : Prop where
  status : t'.status = t.status
  result : t'.result = t.result
  buf : t'.buf = t.buf
  sin : t'.sin = t.sin
  sout : ∃ bytes, t.sout = s.sout ++ bytes ∧ t'.sout = s'.sout ++ bytes

/-- Where the run `r` from `s` completes, the run `r'` from `s'` completes with the same effect. -/
def AnswersAlike (s s' : State) (r r' : Result) : Prop :=
  ∀ t, r = .next t → ∃ t', r' = .next t' ∧ SameEffect s s' t t'

theorem answersAlike_next {s s' t t' : State} (h : SameEffect s s' t t') : AnswersAlike s s' (.next t) (.next t') := by
  rintro _ ⟨⟩
  exact ⟨t', rfl, h⟩

section
variable (s u : State)

/-- Two runs that make the same check answer alike when they do so on either side of it. -/
theorem ite_answersAlike {P : Prop} [Decidable P] {a b a' b' : Result} (ha : AnswersAlike s u a a')
    (hb : AnswersAlike s u b b') : AnswersAlike s u (if P then a else b) (if P then a' else b') := by
  by_cases h : P
  · rwa [if_pos h, if_pos h]
  · rwa [if_neg h, if_neg h]

theorem onInstance_answersAlike {k k' : Result} (h : AnswersAlike s u k k') :
    AnswersAlike s u (onInstance s k) (onInstance (u.withInputsOf s) k') := by
  intro t ht
  obtain ⟨hl, hk⟩ := onInstance_next ht
  rw [onInstance_legal (s := u.withInputsOf s) hl]
  exact h t hk

theorem raise_answersAlike (st : Status) : AnswersAlike s u (raise st s) (raise st (u.withInputsOf s)) :=
  answersAlike_next ⟨rfl, rfl, rfl, rfl, [], by simp, by simp⟩

theorem withBufWindow_answersAlike (n : Nat) (r : List Byte → Option Bus) :
    AnswersAlike s u (withBufWindow n s fun w => succeed (r w) s)
      (withBufWindow n (u.withInputsOf s) fun w => succeed (r w) (u.withInputsOf s)) := by
  simp only [withBufWindow, withInputsOf_buf, withInputsOf_offsetIn]
  refine ite_answersAlike s u ?_ (raise_answersAlike s u _)
  cases s.buf.readList s.offsetIn n with
  | none => exact fun _ h => nomatch h
  | some w => exact answersAlike_next ⟨rfl, rfl, rfl, rfl, [], by simp, by simp⟩

theorem withSinWindow_answersAlike (n : Nat) (r : List Byte → Option Bus) :
    AnswersAlike s u (withSinWindow n s fun w s' => succeed (r w) s')
      (withSinWindow n (u.withInputsOf s) fun w s' => succeed (r w) s') := by
  simp only [withSinWindow, withInputsOf_sin]
  refine ite_answersAlike s u ?_ (raise_answersAlike s u _)
  exact answersAlike_next ⟨rfl, rfl, rfl, rfl, [], by simp, by simp⟩

theorem appendToBuf_answersAlike (bytes : List Byte) :
    AnswersAlike s u (appendToBuf bytes s) (appendToBuf bytes (u.withInputsOf s)) := by
  have hfits : AnswersAlike s u (succeed none { s with buf := s.buf.append bytes })
      (succeed none { u.withInputsOf s with buf := s.buf.append bytes }) :=
    answersAlike_next ⟨rfl, rfl, rfl, rfl, [], by simp, by simp⟩
  simp only [appendToBuf, withInputsOf_cfg, withInputsOf_buf]
  cases s.cfg.maxBuffer with
  | none => exact hfits
  | some limit => exact ite_answersAlike s u hfits (raise_answersAlike s u _)

theorem appendToSout_answersAlike (bytes : List Byte) :
    AnswersAlike s u (appendToSout bytes s) (appendToSout bytes (u.withInputsOf s)) :=
  answersAlike_next ⟨rfl, rfl, rfl, rfl, bytes, rfl, rfl⟩

theorem withFcBytes_answersAlike (dflt : Bool) (ord : Endian) {k k' : List Byte → Result}
    (h : ∀ bytes, AnswersAlike s u (k bytes) (k' bytes)) :
    AnswersAlike s u (withFcBytes s dflt ord k) (withFcBytes (u.withInputsOf s) dflt ord k') := by
  have hsame : fcEncoded (u.withInputsOf s) = fcEncoded s := rfl
  unfold withFcBytes
  rw [hsame]
  cases fcEncoded s with
  | pattern raw => exact h _
  | overflow => exact raise_answersAlike s u _

/-- A legal command run from `u` with the inputs of `s` answers as it does from `s`. -/
theorem exec_answersAlike (i : Instr) : AnswersAlike s u (exec i s) (exec i (u.withInputsOf s)) := by
  cases i with
  | icUnpack d o => exact onInstance_answersAlike s u (withBufWindow_answersAlike s u _ _)
  | icPack d o => exact onInstance_answersAlike s u (appendToBuf_answersAlike s u _)
  | icRead d o => exact onInstance_answersAlike s u (withSinWindow_answersAlike s u _ _)
  | icWrite d o => exact onInstance_answersAlike s u (appendToSout_answersAlike s u _)
  | fcUnpack d o => exact onInstance_answersAlike s u (withBufWindow_answersAlike s u _ _)
  | fcPack d o =>
    exact onInstance_answersAlike s u (withFcBytes_answersAlike s u d o (appendToBuf_answersAlike s u))
  | fcRead d o => exact onInstance_answersAlike s u (withSinWindow_answersAlike s u _ _)
  | fcWrite d o =>
    exact onInstance_answersAlike s u (withFcBytes_answersAlike s u d o (appendToSout_answersAlike s u))

/-- So does a word that is no command. -/
theorem illegalCommand_answersAlike : AnswersAlike s u (illegalCommand s) (illegalCommand (u.withInputsOf s)) :=
  onInstance_answersAlike s u (raise_answersAlike s u _)

end

/-- One command performed in two states with the same CFG, BUF and SIN answers alike. -/
theorem perform_answersAlike {s s' : State} (c : Command) (hcfg : s'.cfg = s.cfg) (hbuf : s'.buf = s.buf)
    (hsin : s'.sin = s.sin) : AnswersAlike (present c s) s' (perform c s) (perform c s') := by
  unfold perform
  rw [present_eq_withInputsOf c hcfg hbuf hsin, withInputsOf_cmd]
  cases decode (present c s).cmd with
  | command i => exact exec_answersAlike _ _ i
  | illegal why => exact illegalCommand_answersAlike _ _

/-- Settles O24: `perform` answers alike from every state that shares the inputs. -/
theorem commandDependsOnlyOnItsInputs : Obligations.CommandDependsOnlyOnItsInputs := by
  intro c s s' t hcfg hbuf hsin h
  obtain ⟨t', ht', he⟩ := perform_answersAlike c hcfg hbuf hsin t h
  exact ⟨t', ht', he.status, he.result, he.buf, he.sin, he.sout⟩

end Sys2Proof.Machine

/-! PROOFS. What drives `RESULT` (spec/10_state.md R34): each command has the width of its result port or none, and one
lemma per shared operation says what the port carries at the command's end. -/

namespace Sys2Proof.Machine

/-- The width of the value a command answers on `RESULT` (R34): C for the IC, W for the FC, none for PACK and WRITE. -/
def resultWidth (g : CoreConfig) : Instr → Option Nat
  | .icUnpack _ _ => some g.ic.c
  | .icRead _ _ => some g.ic.c
  | .fcUnpack _ _ => some g.fc.w
  | .fcRead _ _ => some g.fc.w
  | .icPack _ _ => none
  | .icWrite _ _ => none
  | .fcPack _ _ => none
  | .fcWrite _ _ => none

theorem resultWidth_isSome_iff (g : CoreConfig) (i : Instr) : (resultWidth g i).isSome
    ↔ ∃ d o, i = .icUnpack d o ∨ i = .icRead d o ∨ i = .fcUnpack d o ∨ i = .fcRead d o := by
  cases i <;> simp [resultWidth]

/-- At the end `t` of a command, `RESULT` carries a value exactly when the command ended OK and has a result, and that
value fits the command's result width. -/
structure DrivesResult (width : Option Nat) (t : State) : Prop where
  isSome_iff : t.result.isSome ↔ t.status = some .ok ∧ width.isSome
  lt : ∀ v n, width = some n → t.result = some v → v.toNat < 2 ^ n

theorem drivesResult_faulted {st : Status} (h : st ≠ .ok) (width : Option Nat) (s : State) :
    DrivesResult width (complete st none s) := ⟨by simp [h], by simp⟩

theorem drivesResult_value {v : Bus} {n : Nat} (h : v.toNat < 2 ^ n) (s : State) :
    DrivesResult (some n) (complete .ok (some v) s) := ⟨by simp, by rintro _ _ ⟨⟩ ⟨⟩; exact h⟩

theorem drivesResult_noValue (s : State) : DrivesResult none (complete .ok none s) := ⟨by simp, by simp⟩

/-! ## The values -/

theorem toNat_setWidth_lt {n m : Nat} (x : BitVec n) : (x.setWidth m).toNat < 2 ^ n := by
  rw [BitVec.toNat_setWidth]
  exact Nat.lt_of_le_of_lt (Nat.mod_le _ _) x.isLt

/-- A native pattern on the carrier is below `2^W`. -/
theorem toNat_setWidth_native_lt {p : FloatFormatSpec} (h : p.check = none) (x : BitVec (nativeFmt p.w).width)
    (m : Nat) : (x.setWidth m).toNat < 2 ^ p.w := by
  obtain ⟨-, -, -, hw⟩ := FloatFormatSpec.check_none h
  calc (x.setWidth m).toNat
    _ < 2 ^ (nativeFmt p.w).width := toNat_setWidth_lt x
    _ = 2 ^ p.w := by rw [width_nativeFmt hw]

/-! ## The shared operations -/

section
variable {s t : State}

theorem withBufWindow_drivesResult {n k : Nat} {r : List Byte → Bus} (hr : ∀ w, (r w).toNat < 2 ^ k)
    (h : withBufWindow n s (fun w => succeed (some (r w)) s) = .next t) : DrivesResult (some k) t := by
  rcases withBufWindow_next h with ⟨w, -, hw⟩ | rfl
  · rw [← (succeed_next _ _ _).1 hw]
    exact drivesResult_value (hr w) _
  · exact drivesResult_faulted (by simp) _ _

theorem withSinWindow_drivesResult {n k : Nat} {r : List Byte → Bus} (hr : ∀ w, (r w).toNat < 2 ^ k)
    (h : withSinWindow n s (fun w s' => succeed (some (r w)) s') = .next t) : DrivesResult (some k) t := by
  rcases withSinWindow_next h with ⟨-, hw⟩ | rfl
  · rw [← (succeed_next _ _ _).1 hw]
    exact drivesResult_value (hr _) _
  · exact drivesResult_faulted (by simp) _ _

theorem appendToBuf_drivesResult {bytes : List Byte} (h : appendToBuf bytes s = .next t) : DrivesResult none t := by
  rcases appendToBuf_next h with ⟨-, rfl⟩ | ⟨_, -, -, rfl⟩
  · exact drivesResult_noValue _
  · exact drivesResult_faulted (by simp) _ _

theorem appendToSout_drivesResult {bytes : List Byte} (h : appendToSout bytes s = .next t) : DrivesResult none t := by
  rw [appendToSout_next h]
  exact drivesResult_noValue _

theorem withFcBytes_drivesResult {d : Bool} {o : Endian} {k : List Byte → Result} {width : Option Nat}
    (hk : ∀ bytes, k bytes = .next t → DrivesResult width t) (h : withFcBytes s d o k = .next t) :
    DrivesResult width t := by
  rcases withFcBytes_next h with ⟨_, -, h'⟩ | ⟨-, rfl⟩
  · exact hk _ h'
  · exact drivesResult_faulted (by simp) _ _

/-! ## The commands -/

/-- Every command drives `RESULT` as its result width says. -/
theorem exec_drivesResult {i : Instr} (h : exec i s = .next t) :
    DrivesResult (resultWidth s.cfg i) t := by
  obtain ⟨hlegal, -⟩ := exec_ends h
  obtain ⟨-, hfc, -⟩ := CoreConfig.check_parts hlegal
  cases i with
  | icUnpack d o => exact withBufWindow_drivesResult (fun _ => toNat_setWidth_lt _) (onInstance_next h).2
  | icPack d o => exact appendToBuf_drivesResult (onInstance_next h).2
  | icRead d o => exact withSinWindow_drivesResult (fun _ => toNat_setWidth_lt _) (onInstance_next h).2
  | icWrite d o => exact appendToSout_drivesResult (onInstance_next h).2
  | fcUnpack d o =>
    exact withBufWindow_drivesResult (fun _ => toNat_setWidth_native_lt hfc _ _) (onInstance_next h).2
  | fcPack d o => exact withFcBytes_drivesResult (fun _ => appendToBuf_drivesResult) (onInstance_next h).2
  | fcRead d o =>
    exact withSinWindow_drivesResult (fun _ => toNat_setWidth_native_lt hfc _ _) (onInstance_next h).2
  | fcWrite d o => exact withFcBytes_drivesResult (fun _ => appendToSout_drivesResult) (onInstance_next h).2

end

/-- A word that is no command leaves `RESULT` without a value (spec/60_exceptions.md R151, R157). -/
theorem perform_illegal_result {c : Command} {why : Illegal} {s u : State} (hc : decode c.word = .illegal why)
    (h : perform c s = .next u) : u.result = none := by
  rcases perform_cases c s with ⟨i, hi, -⟩ | ⟨_, -, e⟩
  · rw [hc] at hi
    cases hi
  · obtain ⟨-, hraise⟩ := onInstance_next (e ▸ h)
    rw [← (raise_next _ _ _).1 hraise]
    rfl

/-- Settles O20: `exec_drivesResult` for the commands, with their result widths, and `perform_illegal_result` for the
words that are none. -/
theorem resultOnlyFromSuccessfulReads : Obligations.ResultOnlyFromSuccessfulReads := by
  intro i s t h
  have hdrives := exec_drivesResult h
  refine ⟨?_, ?_, ?_, fun c why u => perform_illegal_result⟩
  · rw [hdrives.isSome_iff, resultWidth_isSome_iff]
  · rintro d o v (rfl | rfl) hv <;> exact hdrives.lt v _ rfl hv
  · rintro d o v (rfl | rfl) hv <;> exact hdrives.lt v _ rfl hv

end Sys2Proof.Machine

/-! PROOFS. The memory and its windows (spec/20_memory.md): BUF only grows at its end (R63), a packed window is the
masked container in its byte order (R69), orderings resolve (R65), and the range checks of UNPACK and PACK raise
BUFFER_RANGE (R64, R72). -/

namespace Sys2Proof.Machine

/-! ## BUF only grows at its end -/

@[simp] theorem append_nil (m : Memory) : m.append [] = m := by simp [Memory.append, cellsFrom]

/-- However a command ends, BUF has gained bytes at its end, or none. -/
theorem Ends.buf_append {s t : State} (h : Ends s t) : ∃ bytes, t.buf = s.buf.append bytes := by
  cases h with
  | faulted st => exact ⟨[], by simp⟩
  | answered v k => exact ⟨[], by simp⟩
  | packed bytes => exact ⟨bytes, rfl⟩
  | written bytes => exact ⟨[], by simp⟩

theorem step_buf_append {s t : State} (h : step s = .next t) : ∃ bytes, t.buf = s.buf.append bytes := by
  rcases step_cases h with ⟨-, rfl⟩ | ⟨c, rest, -, hrun⟩ | ⟨rest, -, -, rfl⟩ | ⟨c, rest, u, -, rfl, rfl | hrun⟩
  · exact ⟨[], by simp⟩
  · exact (perform_ends hrun).2.buf_append
  · exact ⟨[], by simp⟩
  · exact ⟨[], by simp⟩
  · exact (perform_ends hrun).2.buf_append

/-- Settles O17: every step appends to BUF (`step_buf_append`), and an append changes no byte that could be read. -/
theorem bufferBytesAreNeverOverwritten : Obligations.BufferBytesAreNeverOverwritten := by
  intro s t h
  obtain ⟨bytes, hbuf⟩ := step_buf_append h
  exact ⟨⟨bytes, hbuf⟩, fun a b hread => hbuf ▸ read_append_old bytes hread⟩

/-! ## The window of a packed value -/

/-- Above its data bytes a masked value has only zero bits, so the padding of a window continues it. -/
theorem extractLsb'_icMask_padding {p : BitWidthSpec} (h : p.n ≤ p.c) (x : BitVec p.c) {i : Nat}
    (hi : p.dataBytes ≤ i) : (icMask p x).extractLsb' (8 * i) 8 = 0 := by
  refine BitVec.eq_of_getLsbD_eq fun j hj => ?_
  have hpad : ¬ 8 * i + j < p.n := by unfold BitWidthSpec.dataBytes at hi; omega
  simp [getLsbD_icMask h, hpad]

/-- The byte that stands where data byte `i` does is byte `i` of the masked value, padding included. -/
theorem getElem?_icEncode_extractLsb' {p : BitWidthSpec} (h : p.n ≤ p.c) (x : BitVec p.c) (b : ByteOrder) {i : Nat}
    (hi : i < p.ioBytes) :
    (icEncode p x b)[pos 0 p.ioBytes i b]? = some ((icMask p x).extractLsb' (8 * i) 8) := by
  rw [getElem?_icEncode p x b i hi]
  by_cases hd : i < p.dataBytes
  · rw [if_pos hd, BitVec.setWidth_ushiftRight_eq_extractLsb]
  · rw [if_neg hd, extractLsb'_icMask_padding h x (by omega)]

/-- The window of an aligned codec is its whole container (spec/10_state.md R45, R46). -/
theorem ioBytes_aligned {p : BitWidthSpec} (h : p.check = none) (ha : p.aligned = true) : p.ioBytes = p.c / 8 := by
  obtain ⟨hc, -, hn⟩ := BitWidthSpec.check_none h
  rw [BitWidthSpec.ioBytes, BitWidthSpec.dataBytes, BitWidthSpec.alignBytes, if_pos ha]
  omega

/-- Settles O46: each byte stands at its `pos` in either order (`getElem?_icEncode_extractLsb'`). -/
theorem windowIsTheContainerInOrder : Obligations.WindowIsTheContainerInOrder := by
  intro p x h
  obtain ⟨-, -, hn⟩ := BitWidthSpec.check_none h
  refine ⟨length_icEncode p x, ioBytes_aligned h, fun i hi => ⟨?_, ?_⟩⟩
  · simpa [icMask] using getElem?_icEncode_extractLsb' hn x .little hi
  · simpa [icMask] using getElem?_icEncode_extractLsb' hn x .big hi

/-! ## The effective ordering -/

/-- Settles O6: the cases of `order` and of `resolve`, each by its definition. -/
theorem effectiveOrderingResolves : Obligations.EffectiveOrderingResolves :=
  fun _ _ => ⟨rfl, rfl, rfl, rfl, rfl, rfl⟩

/-! ## The range checks -/

/-- Settles O26: on a legal instance both UNPACKs are their window check, which fails (`withBufWindow_outside`). -/
theorem unpackPastEndRaisesBufferRange : Obligations.UnpackPastEndRaisesBufferRange := fun _ _ _ hlegal =>
  ⟨fun hpast => (onInstance_legal hlegal _).trans (withBufWindow_outside hpast _),
   fun hpast => (onInstance_legal hlegal _).trans (withBufWindow_outside hpast _)⟩

/-- PACK's append of `n` bytes, when it passes the capacity. -/
theorem appendToBuf_outside {bytes : List Byte} {s : State} {n limit : Nat} (hn : bytes.length = n)
    (hl : s.cfg.maxBuffer = some limit) (h : limit < s.buf.len + n) :
    appendToBuf bytes s = raise (.bufferRange s.buf.len n limit) s := by
  subst hn
  unfold appendToBuf
  rw [hl]
  exact if_neg (by omega)

/-- A value that does not overflow has a pattern, and the command goes on with the window of that pattern. -/
theorem withFcBytes_of_ne_overflow {s : State} (h : fcEncoded s ≠ .overflow) (d : Bool) (o : Endian)
    (k : List Byte → Result) :
    ∃ raw, withFcBytes s d o k = k (fcWindowOfRaw s.cfg.fc raw (s.cfg.order d o)) := by
  unfold withFcBytes
  cases he : fcEncoded s with
  | pattern raw => exact ⟨raw, rfl⟩
  | overflow => exact absurd he h

/-- Settles O28: on a legal instance both PACKs come to their append, of a window of the stated length, and the append
fails (`appendToBuf_outside`). -/
theorem packPastCapacityRaisesBufferRange : Obligations.PackPastCapacityRaisesBufferRange := by
  intro s d o limit hlegal hl
  refine ⟨fun hpast => ?_, fun hpast hvalue => ?_⟩
  · exact (onInstance_legal hlegal _).trans (appendToBuf_outside (length_icEncode _ _ _) hl hpast)
  · obtain ⟨raw, hraw⟩ := withFcBytes_of_ne_overflow hvalue d o fun bytes => appendToBuf bytes s
    have happend := appendToBuf_outside (length_fcWindowOfRaw s.cfg.fc raw (s.cfg.order d o)) hl hpast
    exact (onInstance_legal hlegal _).trans (hraw.trans happend)

end Sys2Proof.Machine

/-! PROOFS. The command word (spec/30_encoding.md): a word that decodes is the word of its meaning, so the eight rows of
the table have five words each (R93) and no two words share a meaning (R91); a word that is no command raises
ILLEGAL_COMMAND and has no other effect (R90, R91). -/

namespace Sys2Proof

/-! ## A word that decodes is the word of its meaning -/

theorem endianBits_endianOfBits (b : BitVec 2) : endianBits (endianOfBits b) = b := by
  revert b; decide

theorem unitOpBits_commandOf (fc : Bool) (op : BitVec 2) (d : Bool) (o : Endian) :
    unitOpBits (commandOf fc op d o) = BitVec.ofBool fc ++ op := by
  cases fc <;> fin_cases op <;> rfl

@[simp] theorem dflt_commandOf (fc : Bool) (op : BitVec 2) (d : Bool) (o : Endian) : (commandOf fc op d o).dflt = d := by
  cases fc <;> fin_cases op <;> rfl

@[simp] theorem ord_commandOf (fc : Bool) (op : BitVec 2) (d : Bool) (o : Endian) : (commandOf fc op d o).ord = o := by
  cases fc <;> fin_cases op <;> rfl

/-- The five fields of R85 make up the word. -/
theorem append_fields (w : Byte) :
    resField w ++ BitVec.ofBool (defField w) ++ endianField w ++ (BitVec.ofBool (unitField w) ++ opField w) = w := by
  revert w; decide

/-- What decodes passes the two checks of R90 and R91, and its meaning is read off its fields (R94). -/
theorem decode_eq_command {w : Byte} {i : Instr} :
    decode w = .command i ↔ resField w = 0b00#2 ∧ (defField w = true → endianField w = 0b00#2)
      ∧ commandOf (unitField w) (opField w) (defField w) (endianOfBits (endianField w)) = i := by
  unfold decode
  split
  · next hres => simp [hres]
  · next hres =>
    split
    · next hdef => simp [hdef]
    · next hdef =>
      rw [not_and_not_right] at hdef
      simpa [not_not.1 hres] using fun _ => hdef

theorem encode_of_decode {w : Byte} {i : Instr} (h : decode w = .command i) : encode i = w := by
  obtain ⟨hres, -, rfl⟩ := decode_eq_command.1 h
  rw [encode, dflt_commandOf, ord_commandOf, endianBits_endianOfBits, unitOpBits_commandOf, ← hres, append_fields]

theorem wellFormed_of_decode {w : Byte} {i : Instr} (h : decode w = .command i) : i.WellFormed := by
  obtain ⟨-, hdef, rfl⟩ := decode_eq_command.1 h
  intro hd
  rw [dflt_commandOf] at hd
  rw [ord_commandOf, hdef hd]
  rfl

/-! ## The rows of the opcode table -/

/-- The `match` word of a command's row in the opcode table (R93): its `UNIT` and `OP`, all else 0. -/
def matchWord (i : Instr) : Byte := (unitOpBits i).setWidth 8

/-- The mask C7 keeps `RES`, `UNIT` and `OP` of a command's word. -/
theorem encode_and_mask (i : Instr) : encode i &&& 0xC7#8 = matchWord i := by
  unfold encode matchWord
  generalize i.dflt = d, endianBits i.ord = e, unitOpBits i = u
  revert d e u; decide

/-- The word of a well-formed command is its row's `match` word with one of the four orderings, or with `DEF`. -/
theorem encode_mem_row {i : Instr} (h : i.WellFormed) :
    encode i ∈ [matchWord i, matchWord i ||| 0x08#8, matchWord i ||| 0x10#8, matchWord i ||| 0x18#8,
      matchWord i ||| 0x20#8] := by
  unfold encode matchWord
  cases hd : i.dflt with
  | true =>
    rw [h hd]
    generalize unitOpBits i = u
    revert u; decide
  | false =>
    generalize endianBits i.ord = e, unitOpBits i = u
    revert e u; decide

/-- Settles O1: the forty words of the table are decoded; conversely a word is its meaning's (`encode_of_decode`), and
the words of a meaning's row are known (`encode_and_mask`, `encode_mem_row`). -/
theorem tableWordsDecode : Obligations.TableWordsDecode := by
  intro row hrow
  constructor
  · revert row; decide
  · intro w d o h
    have hrowWord : matchWord (row.2 d o) = row.1 := by fin_cases hrow <;> rfl
    rw [← encode_of_decode h, ← hrowWord]
    exact ⟨encode_and_mask _, encode_mem_row (wellFormed_of_decode h)⟩

/-! ## Words that are no command -/

theorem decode_reservedBits {w : Byte} (h : resField w ≠ 0b00#2) : decode w = .illegal .reservedBits := if_pos h

theorem decode_illegal_of_orderingWithDefault {w : Byte} (hd : defField w = true) (he : endianField w ≠ 0b00#2) :
    ∃ why, decode w = .illegal why := by
  cases h : decode w with
  | illegal why => exact ⟨why, rfl⟩
  | command i =>
    obtain ⟨-, hdef, -⟩ := decode_eq_command.1 h
    exact absurd (hdef hd) he

namespace Machine

/-- On a legal instance a word that is no command raises ILLEGAL_COMMAND(word) and does nothing else (R90, R91; the
frame is that of `complete`). -/
theorem step_illegal {s : State} {c : Command} {rest : List Input} {why : Illegal} (hlegal : s.cfg.Legal)
    (hp : s.pending = .command c :: rest) (h : decode c.word = .illegal why) :
    step s = .next (complete (.illegalCommand c.word) none (present c { s with pending := rest })) := by
  rw [step_command hp, perform, present_cmd, h]
  exact onInstance_legal hlegal _

/-- Settles O4: such a word is no command (`decode_reservedBits`), and `step_illegal` says what the step is. -/
theorem reservedBitsRaiseIllegalCommand : Obligations.ReservedBitsRaiseIllegalCommand :=
  fun _ _ _ hlegal hp hres => step_illegal hlegal hp (decode_reservedBits hres)

/-- Settles O5: such a word is no command (`decode_illegal_of_orderingWithDefault`), so the step is that of
`step_illegal`; two words of one meaning are both its encoding (`encode_of_decode`). -/
theorem orderingWithDefaultRaisesIllegalCommand : Obligations.OrderingWithDefaultRaisesIllegalCommand := by
  refine ⟨fun s c rest hlegal hp hdef hendian => ?_, fun w w' i h h' => ?_⟩
  · obtain ⟨why, hwhy⟩ := decode_illegal_of_orderingWithDefault hdef hendian
    exact step_illegal hlegal hp hwhy
  · exact (encode_of_decode h).symm.trans (encode_of_decode h')

end Machine

end Sys2Proof

/-! PROOFS. The laws of the integer codec (spec/40_integer_codec.md R109 to R115). They rest on three facts: an encoding
is a function of the masked value, the sign probe is bit N-1 of the masked raw bits, and a decoding is `icExtend` of the
raw bits, whatever N and C. -/

namespace Sys2Proof

/-! ## The masked value -/

theorem icMask_congr {p : BitWidthSpec} (h : p.n ≤ p.c) {x y : BitVec p.c}
    (hxy : ∀ i < p.n, x.getLsbD i = y.getLsbD i) : icMask p x = icMask p y := by
  refine BitVec.eq_of_getLsbD_eq fun i _ => ?_
  rw [getLsbD_icMask h, getLsbD_icMask h]
  by_cases hi : i < p.n
  · rw [hxy i hi]
  · simp [hi]

theorem setWidth_icMask {p : BitWidthSpec} (h : p.n ≤ p.c) (x : BitVec p.c) :
    (icMask p x).setWidth p.n = x.setWidth p.n := by
  refine BitVec.eq_of_toNat_eq ?_
  rw [BitVec.toNat_setWidth, BitVec.toNat_setWidth, toNat_icMask h, Nat.mod_mod]

theorem icEncode_congr {p : BitWidthSpec} {x y : BitVec p.c} (hxy : icMask p x = icMask p y) (b : ByteOrder) :
    icEncode p x b = icEncode p y b := by
  rw [icEncode, hxy, ← icEncode]

/-- Settles O40: masking twice is masking once, and a masked value keeps only the bits below N (`icMask_congr`). -/
theorem packIgnoresGarbageAboveN : Obligations.PackIgnoresGarbageAboveN := by
  intro p x y b h
  obtain ⟨-, -, hn⟩ := BitWidthSpec.check_none h
  exact ⟨icEncode_congr (icMask_icMask p x).symm b, fun hxy => icEncode_congr (icMask_congr hn hxy) b⟩

/-! ## The raw bits of a window -/

/-- Of a window only its N value bits reach the masked value (R68). -/
theorem icMask_icAssemble_congr {p : BitWidthSpec} (h : p.n ≤ p.c) {w w' : List Byte} {b : ByteOrder}
    (hbits : ∀ i < p.n, (w.getD (pos 0 p.ioBytes (i / 8) b) 0).getLsbD (i % 8)
      = (w'.getD (pos 0 p.ioBytes (i / 8) b) 0).getLsbD (i % 8)) :
    icMask p (icAssemble p w b) = icMask p (icAssemble p w' b) := by
  refine icMask_congr h fun i hi => ?_
  rw [getLsbD_icAssemble p w b i (by omega), getLsbD_icAssemble p w' b i (by omega), hbits i hi]

theorem icAssemble_reverse {p : BitWidthSpec} {w : List Byte} (hw : w.length = p.ioBytes) :
    icAssemble p w .big = icAssemble p w.reverse .little := by
  refine BitVec.eq_of_getLsbD_eq fun i hi => ?_
  rw [getLsbD_icAssemble p w _ i hi, getLsbD_icAssemble p w.reverse _ i hi]
  by_cases hd : i < 8 * p.dataBytes
  · have hio : i / 8 < p.ioBytes := Nat.lt_of_lt_of_le (by omega) p.dataBytes_le_ioBytes
    rw [getD_reverse_pos hw hio]
  · simp [hd]

/-! ## The sign probe -/

theorem signMask_eq_twoPow {p : BitWidthSpec} (h : 1 ≤ p.n) : p.signMask = BitVec.twoPow 8 ((p.n - 1) % 8) := by
  rw [BitWidthSpec.signMask, BitVec.twoPow_eq, show (p.n % 8 + 7) % 8 = (p.n - 1) % 8 by omega]

theorem and_twoPow_bne_zero (x : Byte) {k : Nat} (hk : k < 8) : (x &&& BitVec.twoPow 8 k != 0) = x.getLsbD k := by
  have hne : BitVec.twoPow 8 k ≠ 0 := fun h0 => by simpa [hk] using congrArg (·.getLsbD k) h0
  rw [BitVec.and_twoPow]
  cases x.getLsbD k with
  | true => simpa using hne
  | false => rfl

/-- The probe of data byte d-1 finds bit N-1 of the masked value (R113). -/
theorem icSignProbe_eq {p : BitWidthSpec} (h : p.check = none) (w : List Byte) (b : ByteOrder) :
    icSignProbe p w b = (icMask p (icAssemble p w b)).getLsbD (p.n - 1) := by
  obtain ⟨-, hpos, hn⟩ := BitWidthSpec.check_none h
  have hbyte : p.dataBytes - 1 = (p.n - 1) / 8 := by unfold BitWidthSpec.dataBytes; omega
  have hdata : p.n - 1 < 8 * p.dataBytes := by unfold BitWidthSpec.dataBytes; omega
  rw [icSignProbe, signMask_eq_twoPow hpos, and_twoPow_bne_zero _ (Nat.mod_lt _ (by omega)), hbyte, getLsbD_icMask hn,
    getLsbD_icAssemble p w b _ (by omega)]
  simp [hdata, show p.n - 1 < p.n by omega]

/-- Settles O43: the probe is a bit of the masked value (`icSignProbe_eq`), which only the value bits reach
(`icMask_icAssemble_congr`). -/
theorem signProbeIsBitNMinusOne : Obligations.SignProbeIsBitNMinusOne := by
  intro p w w' b h
  obtain ⟨-, -, hn⟩ := BitWidthSpec.check_none h
  refine ⟨icSignProbe_eq h w b, fun hbits => ?_⟩
  rw [icSignProbe_eq h w, icSignProbe_eq h w', icMask_icAssemble_congr hn hbits]

/-! ## Decoding is extending the raw bits -/

/-- What the codec makes of raw bits: their low N bits, sign-extended where SIGNED and zero-extended
otherwise (R108). -/
def icExtend (p : BitWidthSpec) (x : BitVec p.c) : BitVec p.c :=
  if p.signed then (x.setWidth p.n).signExtend p.c else icMask p x

theorem icExtend_signed {p : BitWidthSpec} (h : p.signed = true) (x : BitVec p.c) :
    icExtend p x = (x.setWidth p.n).signExtend p.c := if_pos h

theorem icExtend_unsigned {p : BitWidthSpec} (h : p.signed = false) (x : BitVec p.c) :
    icExtend p x = icMask p x := by simp [icExtend, h]

theorem icExtend_icMask {p : BitWidthSpec} (h : p.n ≤ p.c) (x : BitVec p.c) :
    icExtend p (icMask p x) = icExtend p x := by
  rw [icExtend, icExtend, setWidth_icMask h, icMask_icMask]

/-- The sign of the N raw bits is the bit the probe finds. -/
theorem msb_setWidth_eq {p : BitWidthSpec} (h : p.n ≤ p.c) (x : BitVec p.c) :
    (x.setWidth p.n).msb = (icMask p x).getLsbD (p.n - 1) := by
  rw [BitVec.msb_eq_getLsbD_last, BitVec.getLsbD_setWidth, getLsbD_icMask h, Bool.and_comm]

/-- Sign extension sets every bit from N on where bit N-1 is set. -/
theorem signExtend_setWidth_eq {p : BitWidthSpec} (h : p.n ≤ p.c) (x : BitVec p.c) :
    (x.setWidth p.n).signExtend p.c
      = if (icMask p x).getLsbD (p.n - 1) then icMask p x ||| ~~~p.valueMask else icMask p x := by
  refine BitVec.eq_of_getLsbD_eq fun i hi => ?_
  rw [BitVec.getLsbD_signExtend, msb_setWidth_eq h]
  cases (icMask p x).getLsbD (p.n - 1) with
  | true =>
    by_cases hlow : i < p.n <;>
      simp [-BitVec.getLsbD_eq_getElem, getLsbD_icMask h, getLsbD_valueMask h, hi, hlow]
  | false =>
    by_cases hlow : i < p.n <;> simp [-BitVec.getLsbD_eq_getElem, getLsbD_icMask h, hi, hlow]

/-- A decoding is its raw bits, extended: with N < C by the sign probe, with N = C because nothing is left to extend. -/
theorem icDecode_eq_icExtend {p : BitWidthSpec} (h : p.check = none) (w : List Byte) (b : ByteOrder) :
    icDecode p w b = icExtend p (icAssemble p w b) := by
  obtain ⟨-, -, hn⟩ := BitWidthSpec.check_none h
  cases hs : p.signed with
  | false => rw [icDecode_unsigned hs, icExtend_unsigned hs]
  | true =>
    rw [icExtend_signed hs, signExtend_setWidth_eq hn, icDecode, icSignExtend, icSignProbe_eq h]
    rcases hn.lt_or_eq with hlt | heq
    · rw [if_pos ⟨hs, hlt⟩]
    · have hones : ~~~p.valueMask = 0#p.c := by
        refine BitVec.eq_of_getLsbD_eq fun i hi => ?_
        simp [getLsbD_valueMask hn, hi, heq]
      simp [heq, hones]

theorem icDecode_icEncode {p : BitWidthSpec} (h : p.check = none) (x : BitVec p.c) (b : ByteOrder) :
    icDecode p (icEncode p x b) b = icExtend p x := by
  obtain ⟨-, -, hn⟩ := BitWidthSpec.check_none h
  rw [icDecode_eq_icExtend h, icAssemble_icEncode hn, icExtend_icMask hn]

/-- Settles O39: what a value decodes to after its encoding is its extension (`icDecode_icEncode`). -/
theorem integerRoundTrip : Obligations.IntegerRoundTrip :=
  fun _ v b h hv => (icDecode_icEncode h v b).trans hv

theorem icDecode_reverse {p : BitWidthSpec} (h : p.check = none) {w : List Byte} (hw : w.length = p.ioBytes) :
    icDecode p w .big = icDecode p w.reverse .little := by
  rw [icDecode_eq_icExtend h, icDecode_eq_icExtend h, icAssemble_reverse hw]

/-- Settles O42: `icDecode_reverse`, for the IC and for the FC's transport. -/
theorem endiannessSymmetry : Obligations.EndiannessSymmetry := by
  refine ⟨fun p w h hw => icDecode_reverse h hw, fun p w h hw => ?_⟩
  rw [fcRawOfWindow, icDecode_reverse (FloatFormatSpec.transport_check h) hw, ← fcRawOfWindow]

/-! ## The number a decoding is -/

theorem toInt_icExtend {p : BitWidthSpec} (h : p.n ≤ p.c) (hs : p.signed = true) (x : BitVec p.c) :
    (icExtend p x).toInt = (x.setWidth p.n).toInt := by
  rw [icExtend_signed hs, BitVec.toInt_signExtend_of_le h]

/-- Settles O41: the decoding is the number its N raw bits are in two's complement (`toInt_icExtend`), and their top
bit is set. -/
theorem signBitMeansMinusTwoToN : Obligations.SignBitMeansMinusTwoToN := by
  intro p w b h hs hbit
  obtain ⟨-, -, hn⟩ := BitWidthSpec.check_none h
  rw [icDecode_eq_icExtend h, toInt_icExtend hn hs]
  have hmsb : ((icAssemble p w b).setWidth p.n).msb = true := (msb_setWidth_eq hn _).trans hbit
  refine ⟨?_, BitVec.toInt_neg_of_msb_true hmsb⟩
  rw [BitVec.toInt_eq_msb_cond, if_pos hmsb, BitVec.toNat_setWidth, toNat_icMask hn]
  norm_cast

theorem toNat_icExtend_lt {p : BitWidthSpec} (h : p.n ≤ p.c) (hs : p.signed = false) (x : BitVec p.c) :
    (icExtend p x).toNat < 2 ^ p.n := by
  rw [icExtend_unsigned hs, toNat_icMask h]
  exact Nat.mod_lt _ (Nat.two_pow_pos _)

/-! ## The aligned window -/

/-- A little-endian window is its data bytes, then its padding. -/
theorem icEncode_little (p : BitWidthSpec) (x : BitVec p.c) :
    icEncode p x .little = (List.range p.dataBytes).map (fun i => (icMask p x >>> (8 * i)).setWidth 8)
      ++ List.replicate p.alignBytes 0 := by
  refine List.ext_getElem (by simp [BitWidthSpec.ioBytes]) fun i hi _ => ?_
  simpa [List.getElem_append, List.getElem?_eq_getElem hi] using getElem?_icEncode p x .little i (by simpa using hi)

/-- The big-endian window is the little-endian one, reversed (R103). -/
theorem icEncode_big (p : BitWidthSpec) (x : BitVec p.c) : icEncode p x .big = (icEncode p x .little).reverse := by
  refine List.ext_getElem? fun j => ?_
  rcases Nat.lt_or_ge j p.ioBytes with hj | hj
  · have hbig := getElem?_icEncode p x .big _ (pos_lt hj .big)
    rw [pos_pos hj, ← getElem?_icEncode p x .little _ (pos_lt hj .big)] at hbig
    rw [hbig, List.getElem?_reverse (by simpa using hj)]
    simp
  · simp [hj]

/-- Settles O45: `icEncode_little` shows the padding of the little-endian window, `icEncode_big` turns it round, and
what a value decodes to (`icDecode_icEncode`) does not look at ALIGNED. -/
theorem alignedEncodingOnlyAddsZeroBytes : Obligations.AlignedEncodingOnlyAddsZeroBytes := by
  intro c n sg x h
  have hlittle : icEncode ⟨c, sg, n, true⟩ x .little
      = icEncode ⟨c, sg, n, false⟩ x .little ++ List.replicate ((c - n) / 8) 0 := by
    simp [icEncode_little, BitWidthSpec.alignBytes, BitWidthSpec.dataBytes, icMask, BitWidthSpec.valueMask]
  refine ⟨hlittle, ?_, fun b => ?_⟩
  · rw [icEncode_big, icEncode_big, hlittle, List.reverse_append, List.reverse_replicate]
  · exact (icDecode_icEncode h x b).trans (icDecode_icEncode (p := ⟨c, sg, n, false⟩) h x b).symm

namespace Machine

/-! ## The result of an IC command -/

/-- A value on `RESULT` after IC.UNPACK or IC.READ is the decoding of some window, on a legal instance. -/
theorem exec_ic_result {s t : State} {d : Bool} {o : Endian} {v : Bus}
    (h : exec (.icUnpack d o) s = .next t ∨ exec (.icRead d o) s = .next t) (hv : t.result = some v) :
    s.cfg.Legal ∧ ∃ w b, v = (icDecode s.cfg.ic w b).setWidth 64 := by
  rcases h with h | h
  · obtain ⟨hlegal, hrun⟩ := onInstance_next h
    rcases withBufWindow_next hrun with ⟨w, -, hw⟩ | rfl
    · rw [← (succeed_next _ _ _).1 hw] at hv
      exact ⟨hlegal, w, _, (Option.some.inj hv).symm⟩
    · cases hv
  · obtain ⟨hlegal, hrun⟩ := onInstance_next h
    rcases withSinWindow_next hrun with ⟨-, hw⟩ | rfl
    · rw [← (succeed_next _ _ _).1 hw] at hv
      exact ⟨hlegal, _, _, (Option.some.inj hv).symm⟩
    · cases hv

/-- Settles O47: the result is a decoding (`exec_ic_result`), so the extension of N raw bits. -/
theorem icResultRange : Obligations.IcResultRange := by
  intro s t d o v h hv
  obtain ⟨hlegal, w, b, rfl⟩ := exec_ic_result h hv
  obtain ⟨hic, -, -⟩ := CoreConfig.check_parts hlegal
  obtain ⟨-, -, hn⟩ := BitWidthSpec.check_none hic
  refine ⟨_, rfl, fun hs => ?_, fun hs => ?_⟩ <;> rw [icDecode_eq_icExtend hic]
  · exact toNat_icExtend_lt hn hs _
  · rw [toInt_icExtend hn hs]
    exact ⟨BitVec.le_toInt _, BitVec.toInt_lt⟩

end Machine

end Sys2Proof

/-! PROOFS. The cases of FloatDecode and the special patterns of FloatEncode (spec/41_float_codec.md R120 to R122, R125,
R127, R141): an all-ones exponent, the formula of the finite values, and zeros, whether packed or flushed. -/

namespace Sys2Proof

/-! ## Decoding, by the exponent field -/

theorem floatDecode_inf {p : FloatFmt} {raw : BitVec p.width} (hex : exponentField p raw = p.exponentMask)
    (hfr : fractionField p raw = 0) : floatDecode p raw = .inf (signField p raw) :=
  (if_pos hex).trans (if_pos hfr)

theorem floatDecode_nan {p : FloatFmt} {raw : BitVec p.width} (hex : exponentField p raw = p.exponentMask)
    (hfr : fractionField p raw ≠ 0) : floatDecode p raw = .nan :=
  (if_pos hex).trans (if_neg hfr)

/-- Settles O49: the two fields are the stated numbers (`exponentField_eq`, `fractionField_eq`), and the fraction
decides between `floatDecode_inf` and `floatDecode_nan`. -/
theorem allOnesExponentDecodes : Obligations.AllOnesExponentDecodes := by
  intro p raw _ h
  have hex : exponentField p raw = p.exponentMask := (exponentField_eq p raw).trans h
  have hfr : fractionField p raw = raw.toNat % 2 ^ p.f := fractionField_eq p raw
  exact ⟨fun hzero => floatDecode_inf hex (hfr.trans hzero), fun hne => floatDecode_nan hex (hfr ▸ hne)⟩

/-- The denominator of the fraction may be moved into the power of two, as `floatDecode` does. -/
theorem magnitude_den (p : FloatFmt) (adj num : Nat) (k : Int) :
    magnitude (adj * p.den + num) (k - p.f) = (2 : ℚ) ^ k * (adj + (num : ℚ) / 2 ^ p.f) := by
  rw [magnitude, zpow_sub₀ two_ne_zero, zpow_natCast, FloatFmt.den]
  push_cast
  field_simp

/-- Any other exponent is that of a finite value, and its magnitude is the formula of R122. -/
theorem floatDecode_isFin {p : FloatFmt} {raw : BitVec p.width} (hex : exponentField p raw ≠ p.exponentMask) {adj : Nat}
    (hadj : adj = if exponentField p raw = 0 then 0 else 1) :
    (floatDecode p raw).IsFin (signField p raw)
      ((2 : ℚ) ^ ((exponentField p raw : Int) - p.bias + 1 - adj) * (adj + (fractionField p raw : ℚ) / 2 ^ p.f)) := by
  subst hadj
  exact ⟨_, _, if_neg hex, magnitude_den p _ _ _⟩

/-- Settles O50: `floatDecode_isFin`, with the fields as the stated numbers. -/
theorem finiteDecodeFormula : Obligations.FiniteDecodeFormula := by
  intro p raw adj _ h hadj
  have hex : exponentField p raw = raw.toNat / 2 ^ p.f % 2 ^ p.e := exponentField_eq p raw
  have hfr : fractionField p raw = raw.toNat % 2 ^ p.f := fractionField_eq p raw
  rw [← hex] at h hadj ⊢
  rw [← hfr]
  exact floatDecode_isFin h hadj

/-! ## The special patterns -/

theorem toNat_assembleFloat_zero (p : FloatFmt) (s : Bool) :
    (assembleFloat p s 0 0).toNat = s.toNat * 2 ^ (p.e + p.f) := by
  rw [toNat_assembleFloat p s (Nat.zero_le _) p.den_pos, Nat.zero_mul, Nat.pow_add, FloatFmt.den, Nat.add_zero]

/-- The number of a pattern whose exponent is all ones. -/
theorem toNat_assembleFloat_exponentMask (p : FloatFmt) (s : Bool) {num : Nat} (hnum : num < p.den) :
    (assembleFloat p s p.exponentMask num).toNat
      = s.toNat * 2 ^ (p.e + p.f) + (2 ^ p.e - 1) * 2 ^ p.f + num := by
  rw [toNat_assembleFloat p s le_rfl hnum, Nat.pow_add, FloatFmt.den, FloatFmt.exponentMask]

theorem floatEncode_zero (p : FloatFmt) (s : Bool) (j : Int) :
    floatEncode p (.fin s 0 j) = .pattern (assembleFloat p s 0 0) := by
  rw [floatEncode, if_pos rfl]

/-- Settles O51: the model's three patterns are the stated numbers (`toNat_assembleFloat_exponentMask`,
`toNat_assembleFloat_zero`); NaN's fraction fits because the format has a fraction bit. -/
theorem specialValuesEncode : Obligations.SpecialValuesEncode := by
  rintro p s j ⟨-, hf⟩
  have hquiet : 2 ^ (p.f - 1) < p.den := Nat.pow_lt_pow_right Nat.one_lt_two (Nat.sub_lt hf Nat.one_pos)
  refine ⟨⟨_, rfl, ?_⟩, ⟨_, rfl, ?_⟩, ⟨_, floatEncode_zero p s j, toNat_assembleFloat_zero p s⟩⟩
  · exact toNat_assembleFloat_exponentMask p s p.den_pos
  · simpa using toNat_assembleFloat_exponentMask p false hquiet

/-! ## Zeros, packed and flushed -/

/-- A magnitude below `2^min_normalized_exponent` is flushed to the zero of its sign (R127): its binary exponent is
below that bound, and so not above `exponent_max` either. -/
theorem floatEncode_flush {p : FloatFmt} {m : Nat} {j : Int} (h : magnitude m j < (2 : ℚ) ^ p.minNormalizedExponent)
    (s : Bool) : floatEncode p (.fin s m j) = .pattern (assembleFloat p s 0 0) := by
  rcases Nat.eq_zero_or_pos m with rfl | hm
  · exact floatEncode_zero p s j
  · have hx : binaryExponent m j < p.minNormalizedExponent :=
      (zpow_lt_zpow_iff_right₀ one_lt_two).1 ((binaryExponent_spec hm j).1.trans_lt h)
    have hmax : ¬ p.exponentMax < binaryExponent m j := by
      unfold FloatFmt.minNormalizedExponent FloatFmt.exponentMin at hx
      unfold FloatFmt.exponentMax
      omega
    exact (if_neg hm.ne').trans ((if_neg hmax).trans (if_pos hx))

theorem floatDecode_zero {p : FloatFmt} (h : 1 ≤ p.e) (s : Bool) :
    floatDecode p (assembleFloat p s 0 0) = .fin s 0 (p.exponentMin - p.f) := by
  have hmask : 0 ≠ p.exponentMask := by rw [FloatFmt.exponentMask_eq h]; omega
  rw [floatDecode_assembleFloat p s (Nat.zero_le _) p.den_pos, if_neg hmask, FloatFmt.exponentMin]
  simp [neg_add_eq_sub]

/-- On a native value every conversion is the default one (R131). -/
theorem nativeRound_of_isExact {w m : Nat} {j : Int} (h : isExact (nativeFmt w) m j = true) (nr : NativeRound)
    (s : Bool) : nativeRound nr w s m j = nativeRne (nativeFmt w) s m j := by
  cases nr with
  | rneOnce => rfl
  | host k => rw [nativeRound, if_pos h]

theorem isExact_zero (p : FloatFmt) (j : Int) : isExact p 0 j = true := rfl

theorem nativeEncode_zero (nr : NativeRound) (nb : NanBits) (w : Nat) (s : Bool) (j : Int) :
    nativeEncode nr nb w (.fin s 0 j) = assembleFloat (nativeFmt w) s 0 0 := by
  rw [nativeEncode, nativeRound_of_isExact (isExact_zero _ j), nativeRne, floatEncode_zero]

/-- Settles O59: a zero (`floatEncode_zero`) and a flushed value (`floatEncode_flush`) are packed as one pattern, which
decodes to a zero (`floatDecode_zero`), and that unpacks to the native zero (`nativeEncode_zero`). -/
theorem signedZeroIsKept : Obligations.SignedZeroIsKept := by
  rintro p s m j nr nb w ⟨he, -⟩ h
  have hpack : floatEncode p (.fin s m j) = .pattern (assembleFloat p s 0 0) := by
    rcases h with rfl | hlt
    · exact floatEncode_zero p s j
    · exact floatEncode_flush hlt s
  refine ⟨_, hpack, toNat_assembleFloat_zero p s, ?_, ?_⟩ <;> rw [floatDecode_zero he]
  · exact ⟨0, _, rfl, magnitude_eq_zero.2 rfl⟩
  · rw [nativeEncode_zero, toNat_assembleFloat_zero]

end Sys2Proof

/-! PROOFS. The faults (spec/60_exceptions.md): a command that ends with a fault has changed nothing else (R157), and a
READ of a short SIN raises STREAM_SHORT (R153). -/

namespace Sys2Proof.Machine

/-- A command that ends with a fault has completed its starting state with it, and done nothing more (R157): the other
ways to end answer OK. -/
theorem Ends.eq_complete_of_fault {s t : State} {st : Status} (h : Ends s t) (hst : t.status = some st)
    (hcode : st.code ≠ 0) : t = complete st none s := by
  cases h with
  | faulted st' => cases hst; rfl
  | answered v k => cases hst; exact absurd rfl hcode
  | packed bytes => cases hst; exact absurd rfl hcode
  | written bytes => cases hst; exact absurd rfl hcode

/-- Settles O19: every command, and every word presented, ends in one of the ways of `Ends` (`exec_ends`,
`perform_ends`), and only a fault has a code other than 0 (`Ends.eq_complete_of_fault`). -/
theorem faultedCommandHasNoEffect : Obligations.FaultedCommandHasNoEffect :=
  ⟨fun _ _ _ _ h => (exec_ends h).2.eq_complete_of_fault, fun _ _ _ _ h => (perform_ends h).2.eq_complete_of_fault⟩

/-- READ's window, when SIN is too short for it. -/
theorem withSinWindow_short {n : Nat} {s : State} (hn : s.sin.length < n) (k : List Byte → State → Result) :
    withSinWindow n s k = raise (.streamShort n s.sin.length) s := by
  rw [withSinWindow, if_neg (by omega)]

/-- Settles O30: on a legal instance both READs are their window check, which fails (`withSinWindow_short`). -/
theorem shortReadRaisesStreamShort : Obligations.ShortReadRaisesStreamShort := fun _ _ _ hlegal =>
  ⟨fun hshort => (onInstance_legal hlegal _).trans (withSinWindow_short hshort _),
   fun hshort => (onInstance_legal hlegal _).trans (withSinWindow_short hshort _)⟩

end Sys2Proof.Machine

/-! PROOFS. Decoding and encoding are inverse (spec/30_encoding.md R91, R94): the word of a well-formed command has
that command's fields, and the fields are all the decoder looks at. -/

namespace Sys2Proof

/-- The fields of the encoded word, for all eight commands. -/
theorem encode_fields (i : Instr) : Laws.WordFields.Statement i := by
  cases i with
  | icUnpack d o => exact Laws.WordFields.icUnpack d o
  | icPack d o => exact Laws.WordFields.icPack d o
  | icRead d o => exact Laws.WordFields.icRead d o
  | icWrite d o => exact Laws.WordFields.icWrite d o
  | fcUnpack d o => exact Laws.WordFields.fcUnpack d o
  | fcPack d o => exact Laws.WordFields.fcPack d o
  | fcRead d o => exact Laws.WordFields.fcRead d o
  | fcWrite d o => exact Laws.WordFields.fcWrite d o

/-- The `UNIT` bit and the `OP` field of a command, with its free fields, are that command (R93). -/
theorem commandOf_unitOpBits (i : Instr) :
    commandOf ((unitOpBits i).getLsbD 2) ((unitOpBits i).setWidth 2) i.dflt i.ord = i := by
  cases i <;> simp [unitOpBits, commandOf, Instr.dflt, Instr.ord]

theorem decode_encode {i : Instr} (h : i.WellFormed) : decode (encode i) = .command i := by
  obtain ⟨hres, hdflt, hord, hunit, hop⟩ := encode_fields i
  refine decode_eq_command.2 ⟨hres, fun hd => ?_, ?_⟩
  · rw [← endianBits_endianOfBits (endianField (encode i)), hord, h (hdflt ▸ hd)]
    rfl
  · rw [hunit, hop, hdflt, hord, commandOf_unitOpBits]

/-- Settles O2: `decode_encode`. -/
theorem decodeInvertsEncode : Obligations.DecodeInvertsEncode := fun _ => decode_encode

/-- Settles O3: `encode_of_decode` and `wellFormed_of_decode`. -/
theorem everyMeaningHasOneWord : Obligations.EveryMeaningHasOneWord :=
  fun _ _ h => ⟨encode_of_decode h, wellFormed_of_decode h⟩

end Sys2Proof

/-! PROOFS. The invariant (spec/10_state.md R30, R34; spec/20_memory.md R60; spec/60_exceptions.md R155): every way a
command can end keeps it, so every step does; reset and every launch establish it. -/

namespace Sys2Proof.Machine

/-- A command that ends with a possible pair keeps the invariant of the state it completes. -/
theorem State.Inv.complete {s : State} (h : s.Inv) {st : Status} {r : Option Bus} (hp : Completion.Possible ⟨st, r⟩) :
    (complete st r s).Inv where
  legal := h.legal
  canonical := h.canonical
  capacity := h.capacity
  ports := .inr ⟨st, rfl, by simp⟩
  record c hc := by
    rcases List.mem_append.1 hc with hold | hnew
    · exact h.record c hold
    · exact List.mem_singleton.1 hnew ▸ hp

theorem possible_ok (r : Option Bus) : Completion.Possible ⟨.ok, r⟩ := ⟨.inl rfl, by simp [Status.code]⟩

/-- The invariant does not speak of SIN, SOUT, the input ports, the queue or the free-choice counter. -/
theorem State.Inv.of_eq {s t : State} (h : s.Inv) (hcfg : t.cfg = s.cfg) (hbuf : t.buf = s.buf)
    (hstatus : t.status = s.status) (hresult : t.result = s.result) (hhistory : t.history = s.history) : t.Inv := by
  obtain ⟨hlegal, hcanonical, hcapacity, hports, hrecord⟩ := h
  refine ⟨?_, ?_, ?_, ?_, ?_⟩
  · rwa [hcfg]
  · rwa [hbuf]
  · rwa [State.WithinCapacity, hcfg, hbuf]
  · rwa [State.PortsAgree, hstatus, hresult, hhistory]
  · rwa [hhistory]

/-- An append that fits keeps it (R60, R62). -/
theorem State.Inv.append {s : State} (h : s.Inv) {bytes : List Byte}
    (hfit : ∀ limit ∈ s.cfg.maxBuffer, s.buf.len + bytes.length ≤ limit) : { s with buf := s.buf.append bytes }.Inv where
  legal := h.legal
  canonical := wf_append h.canonical bytes
  capacity limit hl := by simpa using hfit limit hl
  ports := h.ports
  record := h.record

theorem State.Inv.clearOutputs {s : State} (h : s.Inv) : (clearOutputs s).Inv :=
  ⟨h.legal, h.canonical, h.capacity, .inl ⟨rfl, rfl⟩, h.record⟩

/-- However a command ends, it keeps the invariant. -/
theorem Ends.inv {s t : State} (h : Ends s t) (hs : s.Inv) : t.Inv := by
  cases h with
  | faulted st hne hne' => exact hs.complete ⟨.inr rfl, hne'⟩
  | answered v k =>
    have hread : { s with sin := s.sin.drop k }.Inv := hs.of_eq rfl rfl rfl rfl rfl
    exact hread.complete (possible_ok _)
  | packed bytes hfit => exact (hs.append hfit).complete (possible_ok _)
  | written bytes =>
    have hwritten : { s with sout := s.sout ++ bytes }.Inv := hs.of_eq rfl rfl rfl rfl rfl
    exact hwritten.complete (possible_ok _)

theorem perform_inv {c : Command} {s t : State} (h : perform c s = .next t) (hs : s.Inv) : t.Inv :=
  (perform_ends h).2.inv (hs.of_eq rfl rfl rfl rfl rfl)

/-- Settles O14: by the cases of a step, with `perform_inv` where a command runs. -/
theorem stepKeepsInvariant : Obligations.StepKeepsInvariant := by
  intro s t hs h
  rcases step_cases h with ⟨-, rfl⟩ | ⟨c, rest, -, hrun⟩ | ⟨rest, -, -, rfl⟩ | ⟨c, rest, u, -, rfl, rfl | hrun⟩
  · exact hs
  · exact perform_inv hrun (hs.of_eq rfl rfl rfl rfl rfl)
  · exact (hs.of_eq rfl rfl rfl rfl rfl : { s with pending := rest }.Inv).clearOutputs
  · exact (hs.of_eq rfl rfl rfl rfl rfl : { s with pending := rest, freeIx := s.freeIx + 1 }.Inv).clearOutputs
  · exact (perform_inv hrun (hs.of_eq rfl rfl rfl rfl rfl)).clearOutputs

/-- A legal instance with a canonical buffer within its capacity, no output and an empty record meets the invariant. -/
theorem inv_of_idle {s : State} (hlegal : s.cfg.Legal) (hwf : s.buf.wf) (hcap : s.WithinCapacity)
    (hstatus : s.status = none) (hresult : s.result = none) (hhistory : s.history = []) : s.Inv :=
  ⟨hlegal, hwf, hcap, .inl ⟨hstatus, hresult⟩, by simp [hhistory]⟩

/-- Settles O12: State.reset is idle on a legal instance (`inv_of_idle`). -/
theorem resetSatisfiesInvariant : Obligations.ResetSatisfiesInvariant :=
  ⟨inv_of_idle (by decide) (by decide) (by decide) rfl rfl rfl, rfl, rfl, rfl⟩

/-- Settles O13: a launch state is idle (`inv_of_idle`), and its BUF is laid down canonically (`wf_ofBytes`). -/
theorem launchSatisfiesInvariant : Obligations.LaunchSatisfiesInvariant := by
  intro g buf sin sout inputs hlegal hfit
  refine ⟨inv_of_idle hlegal (wf_ofBytes buf) (fun limit hl => ?_) rfl rfl rfl, ?_, rfl, rfl⟩
  · simpa using hfit limit hl
  · simp [State.observe]

/-! ## What no step does -/

/-- What every step keeps of the configuration and the streams (R41, R77). -/
structure OnlyStreamsMove (s t : State) : Prop where
  cfg : t.cfg = s.cfg
  sin : ∃ n, t.sin = s.sin.drop n
  sout : ∃ bytes, t.sout = s.sout ++ bytes

theorem OnlyStreamsMove.of_eq {s t : State} (hcfg : t.cfg = s.cfg) (hsin : t.sin = s.sin) (hsout : t.sout = s.sout) :
    OnlyStreamsMove s t := ⟨hcfg, ⟨0, hsin⟩, [], by simpa using hsout⟩

theorem Ends.onlyStreamsMove {s t : State} (h : Ends s t) : OnlyStreamsMove s t := by
  cases h with
  | faulted st => exact .of_eq rfl rfl rfl
  | answered v k => exact ⟨rfl, ⟨k, rfl⟩, [], by simp⟩
  | packed bytes => exact .of_eq rfl rfl rfl
  | written bytes => exact ⟨rfl, ⟨0, rfl⟩, bytes, rfl⟩

theorem perform_onlyStreamsMove {c : Command} {s t : State} (h : perform c s = .next t) : OnlyStreamsMove s t :=
  have hends := (perform_ends h).2.onlyStreamsMove
  ⟨hends.cfg, hends.sin, hends.sout⟩

theorem step_onlyStreamsMove {s t : State} (h : step s = .next t) : OnlyStreamsMove s t := by
  rcases step_cases h with ⟨-, rfl⟩ | ⟨c, rest, -, hrun⟩ | ⟨rest, -, -, rfl⟩ | ⟨c, rest, u, -, rfl, rfl | hrun⟩
  · exact .of_eq rfl rfl rfl
  · have hmove := perform_onlyStreamsMove hrun
    exact ⟨hmove.cfg, hmove.sin, hmove.sout⟩
  · exact .of_eq rfl rfl rfl
  · exact .of_eq rfl rfl rfl
  · have hmove := perform_onlyStreamsMove hrun
    exact ⟨hmove.cfg, hmove.sin, hmove.sout⟩

/-- Settles O16: `step_onlyStreamsMove`. -/
theorem configurationNeverChanges : Obligations.ConfigurationNeverChanges := fun _ _ h => (step_onlyStreamsMove h).cfg

/-- Settles O18: `step_onlyStreamsMove`. -/
theorem streamsOnlyConsumedAndAppended : Obligations.StreamsOnlyConsumedAndAppended :=
  fun _ _ h => ⟨(step_onlyStreamsMove h).sin, (step_onlyStreamsMove h).sout⟩

/-! ## Every command completes -/

section
variable {s : State}

theorem onInstance_completes (h : s.cfg.Legal) {k : Result} (hk : ∃ t, k = .next t) : ∃ t, onInstance s k = .next t :=
  hk.imp fun _ e => (onInstance_legal h k).trans e

theorem withBufWindow_completes (hwf : s.buf.wf) (n : Nat) (r : List Byte → Option Bus) :
    ∃ t, withBufWindow n s (fun w => succeed (r w) s) = .next t := by
  rcases Nat.lt_or_ge s.buf.len (s.offsetIn + n) with hout | hin
  · exact ⟨_, withBufWindow_outside hout _⟩
  · exact ⟨_, withBufWindow_inside hwf hin _⟩

theorem withSinWindow_completes (n : Nat) (r : List Byte → Option Bus) :
    ∃ t, withSinWindow n s (fun w s' => succeed (r w) s') = .next t := by
  unfold withSinWindow
  split
  · exact ⟨_, rfl⟩
  · exact ⟨_, rfl⟩

theorem appendToBuf_completes (bytes : List Byte) : ∃ t, appendToBuf bytes s = .next t := by
  unfold appendToBuf
  split
  · split
    · exact ⟨_, rfl⟩
    · exact ⟨_, rfl⟩
  · exact ⟨_, rfl⟩

theorem withFcBytes_completes (d : Bool) (o : Endian) {k : List Byte → Result} (hk : ∀ bytes, ∃ t, k bytes = .next t) :
    ∃ t, withFcBytes s d o k = .next t := by
  unfold withFcBytes
  split
  · exact hk _
  · exact ⟨_, rfl⟩

/-- On a ready instance every command answers a next state (spec/70_reset_and_hazards.md R180). -/
theorem exec_completes (h : s.Ready) (i : Instr) : ∃ t, exec i s = .next t := by
  obtain ⟨hlegal, hwf⟩ := h
  cases i with
  | icUnpack d o => exact onInstance_completes hlegal (withBufWindow_completes hwf _ _)
  | icPack d o => exact onInstance_completes hlegal (appendToBuf_completes _)
  | icRead d o => exact onInstance_completes hlegal (withSinWindow_completes _ _)
  | icWrite d o => exact onInstance_completes hlegal ⟨_, rfl⟩
  | fcUnpack d o => exact onInstance_completes hlegal (withBufWindow_completes hwf _ _)
  | fcPack d o => exact onInstance_completes hlegal (withFcBytes_completes d o appendToBuf_completes)
  | fcRead d o => exact onInstance_completes hlegal (withSinWindow_completes _ _)
  | fcWrite d o => exact onInstance_completes hlegal (withFcBytes_completes d o fun _ => ⟨_, rfl⟩)

/-- So does every word the issuer can present. -/
theorem perform_completes (h : s.Ready) (c : Command) : ∃ t, perform c s = .next t := by
  rcases perform_cases c s with ⟨i, -, e⟩ | ⟨_, -, e⟩
  · rw [e]
    exact exec_completes (s := present c s) h i
  · exact ⟨_, e.trans (onInstance_legal h.1 _)⟩

end

/-! ## Reset -/

/-- A reset between commands, on a legal instance (R173). -/
theorem resetBlock_legal {s : State} (h : s.cfg.Legal) : resetBlock s = .next (clearOutputs s) := onInstance_legal h _

/-- A reset during a command that would complete, on a legal instance: all of it or nothing (R174). -/
theorem resetDuring_legal {s t : State} {run : State → Result} (h : s.cfg.Legal)
    (hrun : run { s with freeIx := s.freeIx + 1 } = .next t) :
    resetDuring s run = .next (clearOutputs t)
      ∨ resetDuring s run = .next (clearOutputs { s with freeIx := s.freeIx + 1 }) := by
  unfold resetDuring
  cases Config.resetLetsComplete s.freeIx with
  | true => exact .inl (by simp [hrun])
  | false => exact .inr (resetBlock_legal h)

/-- Settles O8: `resetBlock_legal`. -/
theorem resetClearsOnlyTheOutputs : Obligations.ResetClearsOnlyTheOutputs :=
  fun _ _ hlegal hp => (step_reset hp).trans (resetBlock_legal hlegal)

/-- Settles O9: the command would complete (`perform_completes`), and `resetDuring_legal` gives the two outcomes. -/
theorem resetDuringCommandIsAllOrNothing : Obligations.ResetDuringCommandIsAllOrNothing := by
  intro s c rest hready hp
  obtain ⟨t, ht⟩ := perform_completes (s := { s with pending := rest, freeIx := s.freeIx + 1 }) hready c
  refine ⟨t, ht, ?_⟩
  rw [step_resetDuring hp]
  exact resetDuring_legal (s := { s with pending := rest }) hready.1 ht

/-- Settles O15: by what is presented next; a command completes (`perform_completes`), and so does a reset. -/
theorem stepAlwaysAnswersNext : Obligations.StepAlwaysAnswersNext := by
  intro s hs
  have hready : s.Ready := ⟨hs.legal, hs.canonical⟩
  rcases hp : s.pending with _ | ⟨c | _ | c, rest⟩
  · exact ⟨s, step_idle hp⟩
  · exact step_command hp ▸ perform_completes (s := { s with pending := rest }) hready c
  · exact ⟨_, resetClearsOnlyTheOutputs s rest hs.legal hp⟩
  · obtain ⟨t, -, hstep | hstep⟩ := resetDuringCommandIsAllOrNothing s c rest hready hp
    · exact ⟨_, hstep⟩
    · exact ⟨_, hstep⟩

/-- Settles O7: a presented command is performed (`step_command`), and its word decides which one runs. -/
theorem stepRunsTheDecodedCommand : Obligations.StepRunsTheDecodedCommand := by
  intro s c rest i hp hi
  rw [step_command hp, perform, present_cmd, hi]
  rfl

end Sys2Proof.Machine

/-! PROOFS. Elaboration (spec/10_state.md R57, R58; spec/70_reset_and_hazards.md R175): it accepts exactly the legal
parameters, and on a configuration that fails a check no command runs. -/

namespace Sys2Proof

/-- The configuration of the supplied parameters, once the two orderings are resolved. -/
def ElabArgs.config (a : ElabArgs) (b : ByteOrder) (e : Endian) : CoreConfig where
  ic := ⟨a.c, a.signed, a.n, a.aligned.getD a.defaultAligned⟩
  fc := ⟨⟨a.e, a.f⟩, a.t, a.w⟩
  nativeEndian := b
  defaultEndian := e
  defaultAligned := a.defaultAligned
  maxBuffer := a.maxBuffer
  nativeRound := a.nativeRound
  nanBits := a.nanBits

theorem NativeSource.resolve_eq_some {n : NativeSource} {b : ByteOrder} :
    n.resolve = some b ↔ n = .override b ∨ n = .probe b := by
  cases n <;> simp [NativeSource.resolve]

/-- What elaboration answers when both orderings are there: the configuration, unless a check fails. -/
theorem elaborate_of_orderings {a : ElabArgs} {b : ByteOrder} {e : Endian} (hb : a.nativeSource.resolve = some b)
    (he : a.defaultEndian = some e) :
    elaborate a = match (a.config b e).check with
      | some why => .error why
      | none => .ok (a.config b e) := by
  unfold elaborate
  rw [hb, he]
  rfl

theorem elaborate_eq_ok {a : ElabArgs} {g : CoreConfig} :
    elaborate a = .ok g ↔ ∃ b e, a.nativeSource.resolve = some b ∧ a.defaultEndian = some e
      ∧ (a.config b e).Legal ∧ a.config b e = g := by
  constructor
  · intro h
    rcases hb : a.nativeSource.resolve with _ | b
    · simp [elaborate, hb] at h
    rcases he : a.defaultEndian with _ | e
    · simp [elaborate, hb, he] at h
    rw [elaborate_of_orderings hb he] at h
    split at h
    · cases h
    · exact ⟨b, e, rfl, rfl, ‹_›, Except.ok.inj h⟩
  · rintro ⟨b, e, hb, he, hlegal, rfl⟩
    rw [elaborate_of_orderings hb he, hlegal]

/-! ## The checks pass on legal widths -/

theorem BitWidthSpec.check_of_bounds {p : BitWidthSpec} (hc : p.c ∈ [8, 16, 32, 64]) (h1 : 1 ≤ p.n) (hn : p.n ≤ p.c) :
    p.check = none := by
  rw [BitWidthSpec.check, if_neg (not_not.2 hc), if_neg (by omega)]

theorem FloatFormatSpec.check_of_bounds {p : FloatFormatSpec} (hok : p.toFloatFmt.Ok) (ht : p.t ∈ [8, 16, 32, 64])
    (hfit : 1 + p.e + p.f ≤ p.t) (hw : p.w ∈ [32, 64]) : p.check = none := by
  obtain ⟨he, hf⟩ := hok
  rw [FloatFormatSpec.check, if_neg (by omega), if_neg (by omega), if_neg (not_not.2 ht), if_neg (by omega),
    if_neg (not_not.2 hw)]

theorem CoreConfig.legal_of_parts {g : CoreConfig} (hic : g.ic.check = none) (hfc : g.fc.check = none)
    (hmax : g.maxBuffer ≠ some 0) : g.Legal := by
  rw [CoreConfig.Legal, CoreConfig.check, hic, hfc]
  exact if_neg hmax

/-- Settles O11: legal widths pass every check (`check_of_bounds`), so elaboration gives the supplied configuration
(`elaborate_eq_ok`). -/
theorem elaborationAcceptsLegalParameters : Obligations.ElaborationAcceptsLegalParameters := by
  intro a b e hb he hc h1 hn hexp hfrac ht hfit hw hmax
  have hlegal : (a.config b e).Legal := CoreConfig.legal_of_parts (BitWidthSpec.check_of_bounds hc h1 hn)
    (FloatFormatSpec.check_of_bounds ⟨hexp, hfrac⟩ ht hfit hw) hmax
  refine ⟨_, elaborate_eq_ok.2 ⟨b, e, NativeSource.resolve_eq_some.2 hb, he, hlegal, rfl⟩, hlegal, rfl, rfl, rfl, ?_,
    ⟨rfl, rfl, rfl, rfl, rfl, rfl⟩, rfl, rfl, rfl, rfl⟩
  cases h : a.aligned <;> simp [ElabArgs.config, h]

namespace Machine

/-- Every command first asks whether its instance exists. -/
theorem exec_eq_onInstance (i : Instr) (s : State) : ∃ k, exec i s = onInstance s k := by
  cases i <;> exact ⟨_, rfl⟩

theorem onInstance_refused {s : State} {why : ElabError} (h : s.cfg.check = some why) (k : Result) :
    onInstance s k = .refused (.elaborationRefused why) := by
  unfold onInstance
  rw [h]

/-- Settles O10: an accepted configuration is the supplied one (`elaborate_eq_ok`) and has passed the checks, which
bound its widths; a command on any other is refused (`onInstance_refused`). -/
theorem elaborationRefusedUnlessLegal : Obligations.ElaborationRefusedUnlessLegal := by
  refine ⟨fun a g h => ?_, fun s i why h => ?_⟩
  · obtain ⟨b, e, hb, he, hlegal, rfl⟩ := elaborate_eq_ok.1 h
    obtain ⟨hic, hfc, -⟩ := CoreConfig.check_parts hlegal
    obtain ⟨hc, h1, hn⟩ := BitWidthSpec.check_none hic
    obtain ⟨⟨hexp, hfrac⟩, ht, hfit, hw⟩ := FloatFormatSpec.check_none hfc
    exact ⟨by simpa using hc, h1, hn, hexp, hfrac, by simpa using ht, hfit, by simpa using hw,
      NativeSource.resolve_eq_some.1 hb, he, rfl, rfl, rfl, rfl, rfl, rfl⟩
  · obtain ⟨k, hk⟩ := exec_eq_onInstance i s
    rw [hk, onInstance_refused h]

end Machine

end Sys2Proof

/-! PROOFS. The eight commands (spec/40_integer_codec.md R104 to R107, spec/41_float_codec.md R133 to R136): the codes
each can answer, what each leaves unchanged, and what each answers when nothing is at fault. -/

namespace Sys2Proof.Machine

/-! ## The STATUS codes -/

section
variable {s t : State} {st : Status}

theorem withBufWindow_code {n : Nat} {r : List Byte → Option Bus} (hst : t.status = some st)
    (h : withBufWindow n s (fun w => succeed (r w) s) = .next t) : st.code ∈ [0#8, 2#8] := by
  rcases withBufWindow_next h with ⟨w, -, hk⟩ | rfl
  · rw [← (succeed_next _ _ _).1 hk] at hst
    cases hst; decide
  · cases hst; simp [Status.code]

theorem withSinWindow_code {n : Nat} {r : List Byte → Option Bus} (hst : t.status = some st)
    (h : withSinWindow n s (fun w s' => succeed (r w) s') = .next t) : st.code ∈ [0#8, 3#8] := by
  rcases withSinWindow_next h with ⟨-, hk⟩ | rfl
  · rw [← (succeed_next _ _ _).1 hk] at hst
    cases hst; decide
  · cases hst; simp [Status.code]

theorem appendToBuf_code {bytes : List Byte} (hst : t.status = some st) (h : appendToBuf bytes s = .next t) :
    st.code ∈ [0#8, 2#8] := by
  rcases appendToBuf_next h with ⟨-, rfl⟩ | ⟨_, -, -, rfl⟩
  · cases hst; decide
  · cases hst; simp [Status.code]

theorem appendToSout_code {bytes : List Byte} (hst : t.status = some st) (h : appendToSout bytes s = .next t) :
    st.code = 0#8 := by
  rw [appendToSout_next h] at hst
  cases hst; rfl

/-- An FC command that packs can fault on its value before it comes to its bytes. -/
theorem withFcBytes_code {d : Bool} {o : Endian} {k : List Byte → Result} (hst : t.status = some st)
    (h : withFcBytes s d o k = .next t) : (∃ bytes, k bytes = .next t) ∨ st.code = 4#8 := by
  rcases withFcBytes_next h with ⟨raw, -, hk⟩ | ⟨-, rfl⟩
  · exact .inl ⟨_, hk⟩
  · cases hst; exact .inr rfl

end

/-- Settles O21: each command is one shared operation on its instance, and the codes are that operation's. -/
theorem statusCodesByCommand : Obligations.StatusCodesByCommand := by
  intro s t d o st hst
  refine ⟨fun h => withBufWindow_code hst (onInstance_next h).2, fun h => appendToBuf_code hst (onInstance_next h).2,
    fun h => withSinWindow_code hst (onInstance_next h).2, fun h => appendToSout_code hst (onInstance_next h).2,
    fun h => withBufWindow_code hst (onInstance_next h).2, fun h => ?_,
    fun h => withSinWindow_code hst (onInstance_next h).2, fun h => ?_⟩
  · rcases withFcBytes_code hst (onInstance_next h).2 with ⟨bytes, hk⟩ | hcode
    · exact List.mem_of_mem_dropLast (l := [0#8, 2#8, 4#8]) (appendToBuf_code hst hk)
    · simp [hcode]
  · rcases withFcBytes_code hst (onInstance_next h).2 with ⟨bytes, hk⟩ | hcode
    · simp [appendToSout_code hst hk]
    · simp [hcode]

/-! ## The frame -/

/-- A command that started in `s` and ended in `t` has appended `bytes` to BUF, consumed `n` bytes of SIN, appended
`out` to SOUT and ended with some pair, and has done nothing else. -/
def Moves (s t : State) (bytes : List Byte) (n : Nat) (out : List Byte) : Prop :=
  ∃ st r, t = complete st r { s with buf := s.buf.append bytes, sin := s.sin.drop n, sout := s.sout ++ out }

section
variable {s t : State}

theorem moves_nothing {st : Status} {r : Option Bus} (h : t = complete st r s) : Moves s t [] 0 [] :=
  ⟨st, r, by simpa using h⟩

theorem moves_of_withBufWindow {n : Nat} {r : List Byte → Option Bus}
    (h : withBufWindow n s (fun w => succeed (r w) s) = .next t) : Moves s t [] 0 [] := by
  rcases withBufWindow_next h with ⟨w, -, hk⟩ | hfault
  · exact moves_nothing ((succeed_next _ _ _).1 hk).symm
  · exact moves_nothing hfault

theorem moves_of_withSinWindow {n : Nat} {r : List Byte → Option Bus}
    (h : withSinWindow n s (fun w s' => succeed (r w) s') = .next t) : ∃ k, Moves s t [] k [] := by
  rcases withSinWindow_next h with ⟨-, hk⟩ | hfault
  · exact ⟨n, _, _, by simpa using ((succeed_next _ _ _).1 hk).symm⟩
  · exact ⟨0, moves_nothing hfault⟩

theorem moves_of_appendToBuf {bytes : List Byte} (h : appendToBuf bytes s = .next t) : ∃ b, Moves s t b 0 [] := by
  rcases appendToBuf_next h with ⟨-, hok⟩ | ⟨_, -, -, hfault⟩
  · exact ⟨bytes, _, _, by simpa using hok⟩
  · exact ⟨[], moves_nothing hfault⟩

theorem moves_of_appendToSout {bytes : List Byte} (h : appendToSout bytes s = .next t) : ∃ out, Moves s t [] 0 out :=
  ⟨bytes, _, _, by simpa using appendToSout_next h⟩

theorem moves_of_withFcBytes {d : Bool} {o : Endian} {k : List Byte → Result} (h : withFcBytes s d o k = .next t) :
    (∃ bytes, k bytes = .next t) ∨ Moves s t [] 0 [] := by
  rcases withFcBytes_next h with ⟨raw, -, hk⟩ | ⟨-, hfault⟩
  · exact .inl ⟨_, hk⟩
  · exact .inr (moves_nothing hfault)

/-- What each command can move: only the PACKs BUF, only the READs SIN, only the WRITEs SOUT. -/
theorem exec_moves {i : Instr} (h : exec i s = .next t) : ∃ bytes n out, Moves s t bytes n out
    ∧ ((∀ d o, i ≠ .icPack d o ∧ i ≠ .fcPack d o) → bytes = [])
    ∧ ((∀ d o, i ≠ .icRead d o ∧ i ≠ .fcRead d o) → n = 0)
    ∧ ((∀ d o, i ≠ .icWrite d o ∧ i ≠ .fcWrite d o) → out = []) := by
  cases i with
  | icUnpack d o => exact ⟨[], 0, [], moves_of_withBufWindow (onInstance_next h).2, by simp⟩
  | fcUnpack d o => exact ⟨[], 0, [], moves_of_withBufWindow (onInstance_next h).2, by simp⟩
  | icRead d o =>
    obtain ⟨n, hn⟩ := moves_of_withSinWindow (onInstance_next h).2
    exact ⟨[], n, [], hn, by simp⟩
  | fcRead d o =>
    obtain ⟨n, hn⟩ := moves_of_withSinWindow (onInstance_next h).2
    exact ⟨[], n, [], hn, by simp⟩
  | icPack d o =>
    obtain ⟨bytes, hb⟩ := moves_of_appendToBuf (onInstance_next h).2
    exact ⟨bytes, 0, [], hb, by simp⟩
  | fcPack d o =>
    rcases moves_of_withFcBytes (onInstance_next h).2 with ⟨_, hk⟩ | hfault
    · obtain ⟨bytes, hb⟩ := moves_of_appendToBuf hk
      exact ⟨bytes, 0, [], hb, by simp⟩
    · exact ⟨[], 0, [], hfault, by simp⟩
  | icWrite d o =>
    obtain ⟨out, ho⟩ := moves_of_appendToSout (onInstance_next h).2
    exact ⟨[], 0, out, ho, by simp⟩
  | fcWrite d o =>
    rcases moves_of_withFcBytes (onInstance_next h).2 with ⟨_, hk⟩ | hfault
    · obtain ⟨out, ho⟩ := moves_of_appendToSout hk
      exact ⟨[], 0, out, ho, by simp⟩
    · exact ⟨[], 0, [], hfault, by simp⟩

/-- Outside the window of `n` bytes at the end of BUF, an append of `n` bytes changes no read, nor does its fault. -/
theorem appendToBuf_read_outside {bytes : List Byte} {n a : Nat} (hn : bytes.length = n)
    (ha : a < s.buf.len ∨ s.buf.len + n ≤ a) (h : appendToBuf bytes s = .next t) : t.buf.read a = s.buf.read a := by
  rcases appendToBuf_next h with ⟨-, rfl⟩ | ⟨_, -, -, rfl⟩
  · exact read_append_outside s.buf bytes a (hn ▸ ha)
  · rfl

end

/-- Settles O22: `exec_moves`. -/
theorem commandFrame : Obligations.CommandFrame := by
  intro i s t h
  obtain ⟨bytes, n, out, ⟨st, r, rfl⟩, hpack, hread, hwrite⟩ := exec_moves h
  refine ⟨⟨rfl, rfl, rfl, rfl, rfl, rfl⟩, fun hi => ?_, fun hi => ?_, fun hi => ?_, ⟨st, r⟩, rfl, rfl, rfl⟩
  · simp [hpack hi]
  · simp [hread hi]
  · simp [hwrite hi]

/-- Settles O23: both PACKs come to `appendToBuf` with a window of the stated length, or fault on their value. -/
theorem packFrame : Obligations.PackFrame := by
  intro s t d o a
  refine ⟨fun h ha => ?_, fun h ha => ?_⟩
  · exact appendToBuf_read_outside (length_icEncode _ _ _) ha (onInstance_next h).2
  · rcases withFcBytes_next (onInstance_next h).2 with ⟨raw, -, hk⟩ | ⟨-, rfl⟩
    · exact appendToBuf_read_outside (length_fcWindowOfRaw _ _ _) ha hk
    · rfl

/-! ## What a command answers -/

section
variable {s : State}

theorem withBufWindow_of_readList {n : Nat} {w : List Byte} (hin : s.offsetIn + n ≤ s.buf.len)
    (hw : s.buf.readList s.offsetIn n = some w) (k : List Byte → Result) : withBufWindow n s k = k w := by
  rw [withBufWindow, if_pos hin, hw]

/-- READ's window, when SIN starts with it. -/
theorem withSinWindow_of_append {n : Nat} {w rest : List Byte} (hsin : s.sin = w ++ rest) (hw : w.length = n)
    (k : List Byte → State → Result) : withSinWindow n s k = k w { s with sin := rest } := by
  subst hw
  rw [withSinWindow, if_pos (by simp [hsin])]
  simp [hsin]

theorem withFcBytes_of_pattern {raw : BitVec s.cfg.fc.toFloatFmt.width} (h : fcEncoded s = .pattern raw) (d : Bool)
    (o : Endian) (k : List Byte → Result) :
    withFcBytes s d o k = k (fcWindowOfRaw s.cfg.fc raw (s.cfg.order d o)) := by
  unfold withFcBytes
  rw [h]

theorem withFcBytes_of_overflow (h : fcEncoded s = .overflow) (d : Bool) (o : Endian) (k : List Byte → Result) :
    withFcBytes s d o k = raise (.floatOverflow ((fcValueIn s).setWidth 64)) s := by
  unfold withFcBytes
  rw [h]

/-- The window of `n` bytes at OFFSET_IN, inside a canonical buffer, byte by byte (R61). -/
theorem exists_window (hwf : s.buf.wf) {n : Nat} (hin : s.offsetIn + n ≤ s.buf.len) :
    ∃ w, s.buf.readList s.offsetIn n = some w ∧ w.length = n ∧ ∀ j < n, s.buf.read (s.offsetIn + j) = w[j]? :=
  ⟨_, readList_of_wf hwf hin, readList_spec.1 (readList_of_wf hwf hin)⟩

/-- After an append to a canonical buffer the new window reads back byte by byte. -/
theorem read_append_new (hwf : s.buf.wf) {bytes : List Byte} {n : Nat} (hn : bytes.length = n) :
    ∀ j < n, (s.buf.append bytes).read (s.buf.len + j) = bytes[j]? := by
  subst hn
  exact (readList_spec.1 (readList_append_new hwf bytes)).2

/-- IC.UNPACK of a window that is there. -/
theorem exec_icUnpack_of_readList (hlegal : s.cfg.Legal) {w : List Byte}
    (hin : s.offsetIn + s.cfg.ic.ioBytes ≤ s.buf.len) (hw : s.buf.readList s.offsetIn s.cfg.ic.ioBytes = some w)
    (d : Bool) (o : Endian) : exec (.icUnpack d o) s = .next (complete .ok (icResult s d o w) s) :=
  (onInstance_legal hlegal _).trans (withBufWindow_of_readList hin hw _)

/-- FC.UNPACK of a window that is there. -/
theorem exec_fcUnpack_of_readList (hlegal : s.cfg.Legal) {w : List Byte}
    (hin : s.offsetIn + s.cfg.fc.transport.ioBytes ≤ s.buf.len)
    (hw : s.buf.readList s.offsetIn s.cfg.fc.transport.ioBytes = some w) (d : Bool) (o : Endian) :
    exec (.fcUnpack d o) s = .next (complete .ok (fcResult s d o w) s) :=
  (onInstance_legal hlegal _).trans (withBufWindow_of_readList hin hw _)

/-- IC.PACK with room for its window. -/
theorem exec_icPack_of_room (hlegal : s.cfg.Legal)
    (hroom : ∀ limit ∈ s.cfg.maxBuffer, s.buf.len + s.cfg.ic.ioBytes ≤ limit) (d : Bool) (o : Endian) :
    exec (.icPack d o) s = .next (complete .ok none { s with buf := s.buf.append (icBytes s d o) }) :=
  (onInstance_legal hlegal _).trans (appendToBuf_fits (by simpa [icBytes] using hroom))

/-- FC.PACK of a value that has a pattern, with room for its window. -/
theorem exec_fcPack_of_room (hlegal : s.cfg.Legal) {raw : BitVec s.cfg.fc.toFloatFmt.width}
    (hraw : fcEncoded s = .pattern raw)
    (hroom : ∀ limit ∈ s.cfg.maxBuffer, s.buf.len + s.cfg.fc.transport.ioBytes ≤ limit) (d : Bool) (o : Endian) :
    exec (.fcPack d o) s = .next (complete .ok none
      { s with buf := s.buf.append (fcWindowOfRaw s.cfg.fc raw (s.cfg.order d o)) }) := by
  have hfits := appendToBuf_fits (bytes := fcWindowOfRaw s.cfg.fc raw (s.cfg.order d o)) (by simpa using hroom)
  exact (onInstance_legal hlegal _).trans ((withFcBytes_of_pattern hraw d o _).trans hfits)

end

/-- Settles O25: the window is there (`exists_window`), and IC.UNPACK answers it (`exec_icUnpack_of_readList`). -/
theorem icUnpackAnswersItsWindow : Obligations.IcUnpackAnswersItsWindow := by
  rintro s d o ⟨hlegal, hwf⟩ hin
  obtain ⟨w, hw, hlen, hread⟩ := exists_window hwf hin
  exact ⟨w, hlen, hread, exec_icUnpack_of_readList hlegal hin hw d o⟩

/-- Settles O32: the window is there (`exists_window`), and FC.UNPACK answers it (`exec_fcUnpack_of_readList`). -/
theorem fcUnpackAnswersItsWindow : Obligations.FcUnpackAnswersItsWindow := by
  rintro s d o ⟨hlegal, hwf⟩ hin
  obtain ⟨w, hw, hlen, hread⟩ := exists_window hwf hin
  exact ⟨w, _, hlen, hread, rfl, exec_fcUnpack_of_readList hlegal hin hw d o⟩

/-- Settles O27: `exec_icPack_of_room`, and the window reads back (`read_append_new`). -/
theorem icPackAppendsItsWindow : Obligations.IcPackAppendsItsWindow := fun s d o hlegal hroom =>
  have hlen : (icBytes s d o).length = s.cfg.ic.ioBytes := length_icEncode _ _ _
  ⟨_, rfl, hlen, exec_icPack_of_room hlegal hroom d o, fun hwf => read_append_new hwf hlen⟩

/-- Settles O33: `exec_fcPack_of_room`, and the window reads back (`read_append_new`). -/
theorem fcPackAppendsItsWindow : Obligations.FcPackAppendsItsWindow := fun s d o raw hlegal hraw hroom =>
  have hlen := length_fcWindowOfRaw s.cfg.fc raw (s.cfg.order d o)
  ⟨_, rfl, hlen, exec_fcPack_of_room hlegal hraw hroom d o, fun hwf => read_append_new hwf hlen⟩

/-- Settles O29: on a legal instance IC.READ is its window check, which passes (`withSinWindow_of_append`). -/
theorem icReadConsumesItsWindow : Obligations.IcReadConsumesItsWindow := fun _ _ _ _ _ hlegal hsin hw =>
  (onInstance_legal hlegal _).trans (withSinWindow_of_append hsin hw _)

/-- Settles O34: on a legal instance FC.READ is its window check, which passes (`withSinWindow_of_append`). -/
theorem fcReadConsumesItsWindow : Obligations.FcReadConsumesItsWindow := fun _ _ _ _ _ hlegal hsin hw =>
  ⟨_, rfl, (onInstance_legal hlegal _).trans (withSinWindow_of_append hsin hw _)⟩

/-- Settles O31: on a legal instance IC.WRITE is its append, which has no bound. -/
theorem icWriteAppendsToTheStream : Obligations.IcWriteAppendsToTheStream :=
  fun _ _ _ hlegal => onInstance_legal hlegal _

/-- Settles O35: on a legal instance FC.WRITE comes to its append, which has no bound (`withFcBytes_of_pattern`). -/
theorem fcWriteAppendsToTheStream : Obligations.FcWriteAppendsToTheStream := fun _ d o _ hlegal hraw =>
  (onInstance_legal hlegal _).trans (withFcBytes_of_pattern hraw d o _)

/-- Settles O36: an illegal word comes before any operand (`step_illegal`), and a value that overflows before any byte
is made (`withFcBytes_of_overflow`). -/
theorem faultPriority : Obligations.FaultPriority := by
  refine ⟨fun s c rest why hlegal hp hwhy => ⟨_, step_illegal hlegal hp hwhy, rfl⟩, fun s d o hlegal hover => ?_⟩
  refine ⟨_, rfl, ?_, ?_⟩
  · exact (onInstance_legal hlegal _).trans (withFcBytes_of_overflow hover d o _)
  · exact (onInstance_legal hlegal _).trans (withFcBytes_of_overflow hover d o _)

end Sys2Proof.Machine

/-! PROOFS. The integer codec (spec/10_state.md R44 to R49; spec/20_memory.md R68; spec/40_integer_codec.md R108, R109):
the constants of a window, decoding as extension, and the round trip on the machine. -/

namespace Sys2Proof

/-! ## The constants of a window -/

theorem alignBytes_aligned {p : BitWidthSpec} (ha : p.aligned = true) : p.alignBytes = (p.c - p.n) / 8 := if_pos ha

theorem alignBytes_unaligned {p : BitWidthSpec} (ha : p.aligned = false) : p.alignBytes = 0 := by
  simp [BitWidthSpec.alignBytes, ha]

theorem ioBytes_unaligned {p : BitWidthSpec} (ha : p.aligned = false) : p.ioBytes = (p.n + 7) / 8 := by
  rw [BitWidthSpec.ioBytes, alignBytes_unaligned ha, BitWidthSpec.dataBytes, Nat.add_zero]

theorem getLsbD_signMask {p : BitWidthSpec} (h : 1 ≤ p.n) (i : Nat) :
    p.signMask.getLsbD i = decide (i = (p.n - 1) % 8) := by
  rw [signMask_eq_twoPow h, BitVec.getLsbD_twoPow]
  simp [eq_comm, Nat.mod_lt]

/-- Settles O37: the window of an aligned codec is its container (`ioBytes_aligned`), the sign mask has one bit
(`getLsbD_signMask`), and the transport is an unaligned codec that passes its checks
(`FloatFormatSpec.transport_check`). -/
theorem derivedWindowConstants : Obligations.DerivedWindowConstants := by
  refine ⟨fun p h => ?_, fun p h => ?_⟩
  · obtain ⟨-, h1, -⟩ := BitWidthSpec.check_none h
    obtain ⟨hio, hio'⟩ := BitWidthSpec.ioBytes_bounds h
    refine ⟨fun ha => ⟨alignBytes_aligned ha, ?_, Machine.ioBytes_aligned h ha⟩,
      fun ha => ⟨alignBytes_unaligned ha, ioBytes_unaligned ha⟩, hio, by omega, fun i _ => getLsbD_signMask h1 i⟩
    rw [← Machine.ioBytes_aligned h ha, BitWidthSpec.ioBytes, Nat.add_sub_cancel_left]
  · exact ⟨rfl, rfl, rfl, rfl, FloatFormatSpec.transport_check h, ioBytes_unaligned rfl⟩

/-! ## Decoding is extension -/

/-- The mask is the zero extension of the low N bits. -/
theorem icMask_eq_setWidth {p : BitWidthSpec} (h : p.n ≤ p.c) (x : BitVec p.c) :
    icMask p x = (x.setWidth p.n).setWidth p.c := by
  refine BitVec.eq_of_getLsbD_eq fun i hi => ?_
  rw [getLsbD_icMask h, BitVec.getLsbD_setWidth, BitVec.getLsbD_setWidth, Bool.and_comm]
  simp [hi]

/-- With N = C there is nothing to extend, signed or not. -/
theorem icExtend_eq_icMask {p : BitWidthSpec} (h : p.signed = false ∨ p.n = p.c) (x : BitVec p.c) :
    icExtend p x = icMask p x := by
  rcases h with hs | hn
  · exact icExtend_unsigned hs x
  · obtain ⟨c, sg, n, al⟩ := p
    cases (hn : n = c)
    cases sg with
    | false => rfl
    | true =>
      rw [icMask_eq_setWidth le_rfl]
      simp [icExtend]

/-- Settles O38: a decoding is the extension of its raw bits (`icDecode_eq_icExtend`), which is the mask or a sign
extension. -/
theorem decodeExtendsTheRawBits : Obligations.DecodeExtendsTheRawBits := by
  intro p w b x h
  obtain ⟨-, -, hn⟩ := BitWidthSpec.check_none h
  refine ⟨toNat_icMask hn x, fun hzero => ?_, fun hs _ => ?_⟩
  · rw [icDecode_eq_icExtend h, icExtend_eq_icMask hzero, icMask_eq_setWidth hn]
  · rw [icDecode_eq_icExtend h, icExtend_signed hs]

/-- Settles O44: a decoding extends the masked raw bits (`icDecode_eq_icExtend`, `icExtend_icMask`), which only the value
bits reach (`icMask_icAssemble_congr`). -/
theorem decodeIgnoresPaddingAndGarbage : Obligations.DecodeIgnoresPaddingAndGarbage := by
  intro p w w' b h hbits
  obtain ⟨-, -, hn⟩ := BitWidthSpec.check_none h
  rw [icDecode_eq_icExtend h, icDecode_eq_icExtend h, ← icExtend_icMask hn, icMask_icAssemble_congr hn hbits,
    icExtend_icMask hn]

namespace Machine

/-! ## A PACK and the UNPACK of its window -/

/-- The state after a PACK of these bytes, with OFFSET_IN where they begin. -/
def State.packed (s : State) (bytes : List Byte) : State :=
  { complete .ok none { s with buf := s.buf.append bytes } with offsetIn := s.buf.len }

section
variable {s : State} {bytes : List Byte} (h : s.Ready)
include h

/-- The window just appended is inside BUF and reads back whole. -/
theorem packed_window {n : Nat} (hn : bytes.length = n) : (s.packed bytes).offsetIn + n ≤ (s.packed bytes).buf.len
    ∧ (s.packed bytes).buf.readList (s.packed bytes).offsetIn n = some bytes := by
  subst hn
  exact ⟨(len_append s.buf bytes).ge, readList_append_new h.2 bytes⟩

theorem exec_icUnpack_packed (hn : bytes.length = s.cfg.ic.ioBytes) (d : Bool) (o : Endian) :
    exec (.icUnpack d o) (s.packed bytes) = .next (complete .ok (icResult s d o bytes) (s.packed bytes)) :=
  have hwindow := packed_window h hn
  exec_icUnpack_of_readList (s := s.packed bytes) h.1 hwindow.1 hwindow.2 d o

theorem exec_fcUnpack_packed (hn : bytes.length = s.cfg.fc.transport.ioBytes) (d : Bool) (o : Endian) :
    exec (.fcUnpack d o) (s.packed bytes) = .next (complete .ok (fcResult s d o bytes) (s.packed bytes)) :=
  have hwindow := packed_window h hn
  exec_fcUnpack_of_readList (s := s.packed bytes) h.1 hwindow.1 hwindow.2 d o

end

/-- Settles O48: IC.PACK appends the encoding of VALUE_IN, IC.UNPACK of the appended window decodes it, and what an
encoding decodes to is `icExtend` (`icDecode_icEncode`). -/
theorem icPackThenUnpack : Obligations.IcPackThenUnpack := by
  intro s d o hready hroom
  obtain ⟨hic, -, -⟩ := CoreConfig.check_parts hready.1
  obtain ⟨-, -, hn⟩ := BitWidthSpec.check_none hic
  have hraw : (icValueIn s).setWidth s.cfg.ic.n = s.valueIn.setWidth s.cfg.ic.n := BitVec.setWidth_setWidth_of_le _ hn
  have hresult : icResult s d o (icBytes s d o) = some ((icExtend s.cfg.ic (icValueIn s)).setWidth 64) := by
    rw [icResult, icBytes, icDecode_icEncode hic]
  refine ⟨_, _, exec_icPack_of_room hready.1 hroom d o, exec_icUnpack_packed hready (length_icEncode _ _ _) d o, rfl,
    fun hs => hresult.trans ?_, fun hs => hresult.trans ?_⟩
  · rw [icExtend_unsigned hs, icMask_eq_setWidth hn, hraw, BitVec.setWidth_setWidth (by omega)]
  · rw [icExtend_signed hs, hraw]

end Machine

end Sys2Proof

/-! PROOFS. The finite values of a float format as a grid (spec/41_float_codec.md R120, R122, R126 to R129). Binade `k`
is the one whose values are spaced `ulp k` apart; binade 0 holds the subnormals too. A finite value is `M · ulp k`, and
its pattern, without the sign, is the number `k · den + M`: so FloatEncode is one rounding of `q / ulp k` to a natural,
and it overflows when the number reaches `exponent_mask · den`, the pattern of infinity. -/

namespace Sys2Proof

/-! ## Rounding to the nearest natural -/

/-- `r` is the natural nearest to `t`, the even one of two (R128). -/
structure NearestEven (t : ℚ) (r : Nat) : Prop where
  near : |(r : ℚ) - t| ≤ 1 / 2
  tie : |(r : ℚ) - t| = 1 / 2 → r % 2 = 0

theorem roundEven_nearestEven {t : Scaled} (h : t.rem < t.unit) : NearestEven t.value (roundEven t) :=
  ⟨(roundEven_spec t h).1, (roundEven_spec t h).2⟩

namespace NearestEven

variable {t : ℚ} {r : Nat} (h : NearestEven t r)
include h

theorem le_of_le {a : Nat} (ha : (a : ℚ) ≤ t) : a ≤ r := by
  have := abs_le.1 h.near
  have hlt : (a : ℚ) < r + 1 := by linarith
  exact Nat.lt_succ_iff.1 (by exact_mod_cast hlt)

theorem le_of_ge {a : Nat} (ha : t ≤ a) : r ≤ a := by
  have := abs_le.1 h.near
  have hlt : (r : ℚ) < a + 1 := by linarith
  exact Nat.lt_succ_iff.1 (by exact_mod_cast hlt)

theorem eq_of_eq {a : Nat} (ha : t = a) : r = a :=
  le_antisymm (h.le_of_ge ha.le) (h.le_of_le ha.ge)

/-- Another natural is at least a half away. -/
theorem half_le {z : Nat} (hz : z ≠ r) : 1 / 2 ≤ |t - z| := by
  have hint : (1 : ℚ) ≤ |(z : ℚ) - r| := by
    have : (1 : ℤ) ≤ |(z : ℤ) - r| := Int.one_le_abs (by omega)
    exact_mod_cast this
  have hnear : |t - r| ≤ 1 / 2 := abs_sub_comm t r ▸ h.near
  have htri : |(z : ℚ) - r| ≤ |(z : ℚ) - t| + |t - r| := abs_sub_le _ _ _
  rw [abs_sub_comm (z : ℚ) t] at htri
  linarith

/-- No natural is nearer. -/
theorem dist_le (z : Nat) : |t - r| ≤ |t - z| := by
  rcases eq_or_ne z r with rfl | hz
  · exact le_rfl
  · exact (abs_sub_comm t r ▸ h.near).trans (h.half_le hz)

/-- Where another natural is as near, this one is even. -/
theorem even_of_dist_eq {z : Nat} (hz : z ≠ r) (he : |t - r| = |t - z|) : r % 2 = 0 := by
  have hhalf := h.half_le hz
  rw [← he, abs_sub_comm] at hhalf
  exact h.tie (le_antisymm h.near hhalf)

/-- An even natural is reached from half a step below it. -/
theorem even_le_iff {a : Nat} (ha : a % 2 = 0) (hpos : 0 < a) : a ≤ r ↔ (a : ℚ) - 1 / 2 ≤ t := by
  have hnear := abs_le.1 h.near
  constructor
  · intro hle
    have hq : (a : ℚ) ≤ r := by exact_mod_cast hle
    linarith
  · intro hle
    have hpred : ((a - 1 : Nat) : ℚ) = a - 1 := by push_cast [hpos]; ring
    have hle' : a - 1 ≤ r := h.le_of_le (by linarith)
    rcases Nat.lt_or_ge r a with hlt | hge
    · have heq : r = a - 1 := by omega
      have htie : |(r : ℚ) - t| = 1 / 2 := by
        refine le_antisymm h.near ?_
        rw [abs_sub_comm, heq, hpred]
        exact le_trans (by linarith) (le_abs_self _)
      have := h.tie htie
      omega
    · exact hge

end NearestEven

/-- The floor of a scaled magnitude. -/
theorem Scaled.le_floor_of_le {t : Scaled} (h : t.rem < t.unit) {a : Nat} (ha : (a : ℚ) ≤ t.value) : a ≤ t.floor := by
  have hu : (0 : ℚ) < t.unit := by exact_mod_cast (Nat.zero_le _).trans_lt h
  have hlt : (t.rem : ℚ) / t.unit < 1 := (div_lt_one hu).2 (by exact_mod_cast h)
  have hlt' : (a : ℚ) < t.floor + 1 := by
    unfold Scaled.value at ha
    linarith
  exact Nat.lt_succ_iff.1 (by exact_mod_cast hlt')

/-- A natural has no remainder. -/
theorem Scaled.rem_eq_zero_of_value_eq {t : Scaled} (h : t.rem < t.unit) {a : Nat} (ha : t.value = a) : t.rem = 0 := by
  have hu : (0 : ℚ) < t.unit := by exact_mod_cast (Nat.zero_le _).trans_lt h
  have hfloor : (a : ℚ) ≤ t.floor := by exact_mod_cast t.le_floor_of_le h ha.ge
  have hle : (t.rem : ℚ) / t.unit ≤ 0 := by
    unfold Scaled.value at ha
    linarith
  have hrem : (t.rem : ℚ) ≤ 0 := by simpa using (div_le_iff₀ hu).1 hle
  exact Nat.le_zero.1 (by exact_mod_cast hrem)

/-- Taking an even number off the floor takes it off the rounded number. -/
theorem roundEven_sub_floor {t : Scaled} {d : Nat} (hd : d % 2 = 0) (hle : d ≤ t.floor) :
    roundEven { t with floor := t.floor - d } = roundEven t - d := by
  have hpar : (t.floor - d) % 2 = t.floor % 2 := by omega
  simp only [roundEven, hpar]
  split <;> omega

/-! ## The grid -/

namespace FloatFmt

variable (p : FloatFmt)

/-- The spacing of the values of binade `k`. -/
def ulp (k : Nat) : ℚ := (2 : ℚ) ^ ((k : Int) + p.exponentMin - p.f)

/-- The number of the pattern `+∞` (R125): the patterns below it are the finite ones. -/
def infIndex : Nat := p.exponentMask * p.den

/-- `M · ulp k` is a value of binade `k`: a normal significand, or in binade 0 any below `2 · den`. -/
structure InBinade (k M : Nat) : Prop where
  lt : M < 2 * p.den
  le : 0 < k → p.den ≤ M

/-- The pattern of sign `s` and number `n`. -/
def indexPattern (s : Bool) (n : Nat) : BitVec p.width := assembleFloat p s (n / p.den) (n % p.den)

variable {p}

theorem ulp_pos (k : Nat) : 0 < p.ulp k := by unfold ulp; positivity

theorem ulp_add (k i : Nat) : p.ulp (k + i) = 2 ^ i * p.ulp k := by
  rw [ulp, ulp, ← zpow_natCast, ← zpow_add₀ two_ne_zero]
  congr 1
  push_cast
  ring

theorem two_mul_ulp_le {k k' : Nat} (h : k < k') : 2 * p.ulp k ≤ p.ulp k' := by
  obtain ⟨i, rfl⟩ := Nat.exists_eq_add_of_lt h
  rw [Nat.add_assoc, ulp_add, pow_succ, mul_right_comm, mul_assoc]
  have : (1 : ℚ) ≤ 2 ^ i := one_le_pow₀ one_le_two
  nlinarith [ulp_pos (p := p) k]

theorem den_mul_ulp (k : Nat) : (p.den : ℚ) * p.ulp k = 2 ^ ((k : Int) + p.exponentMin) := by
  rw [ulp, den]
  push_cast
  rw [← zpow_natCast, ← zpow_add₀ two_ne_zero]
  congr 1
  ring

theorem two_mul_den_mul_ulp (k : Nat) : 2 * (p.den : ℚ) * p.ulp k = 2 ^ ((k : Int) + p.exponentMin + 1) := by
  rw [mul_assoc, den_mul_ulp, zpow_add_one₀ two_ne_zero, mul_comm]

theorem magnitude_ulp (M k : Nat) : magnitude M ((k : Int) + p.exponentMin - p.f) = M * p.ulp k := rfl

theorem Ok.den_even (h : p.Ok) : p.den % 2 = 0 := by
  obtain ⟨f, hf⟩ := Nat.exists_eq_add_of_le' h.2
  rw [den, hf, pow_succ]
  omega

theorem Ok.two_le_den (h : p.Ok) : 2 ≤ p.den := by
  have := h.den_even
  have := p.den_pos
  omega

theorem Ok.exponentMask_pos (h : p.Ok) : 0 < p.exponentMask := by
  rw [exponentMask_eq h.1]; omega

theorem InBinade.lt_ulp {k M : Nat} (h : p.InBinade k M) : M * p.ulp k < 2 * p.den * p.ulp k :=
  mul_lt_mul_of_pos_right (by exact_mod_cast h.lt) (ulp_pos k)

/-- A value of a lower binade is below all values of the binades above it. -/
theorem InBinade.lt_of_lt {k k' M : Nat} (h : p.InBinade k M) (hk : k < k') : M * p.ulp k < p.den * p.ulp k' := by
  have := mul_le_mul_of_nonneg_left (two_mul_ulp_le (p := p) hk) (Nat.cast_nonneg' p.den)
  linarith [h.lt_ulp]

theorem InBinade.den_mul_le {k M : Nat} (h : p.InBinade k M) (hk : 0 < k) : p.den * p.ulp k ≤ M * p.ulp k :=
  mul_le_mul_of_nonneg_right (by exact_mod_cast h.le hk) (ulp_pos k).le

/-! ## The patterns of the grid -/

theorem indexPattern_mul_add (s : Bool) (ex : Nat) {num : Nat} (h : num < p.den) :
    p.indexPattern s (ex * p.den + num) = assembleFloat p s ex num := by
  rw [indexPattern, Nat.mul_comm, Nat.mul_add_div p.den_pos, Nat.mul_add_mod, Nat.div_eq_of_lt h, Nat.mod_eq_of_lt h,
    Nat.add_zero]

theorem indexPattern_zero (s : Bool) : p.indexPattern s 0 = assembleFloat p s 0 0 := by
  rw [indexPattern, Nat.zero_div, Nat.zero_mod]

theorem toNat_indexPattern (s : Bool) {n : Nat} (h : n < p.infIndex) :
    (p.indexPattern s n).toNat = s.toNat * (2 ^ p.e * p.den) + n := by
  have hex : n / p.den ≤ p.exponentMask := (Nat.div_lt_of_lt_mul (by rwa [Nat.mul_comm])).le
  rw [indexPattern, toNat_assembleFloat p s hex (Nat.mod_lt _ p.den_pos), Nat.add_assoc, Nat.div_add_mod']

/-- The parity of a pattern is that of its significand. -/
theorem Ok.indexPattern_even (hp : p.Ok) (s : Bool) {k M : Nat} (h : k * p.den + M < p.infIndex) (hM : M % 2 = 0) :
    (p.indexPattern s (k * p.den + M)).toNat % 2 = 0 := by
  obtain ⟨d, hd⟩ := Nat.dvd_of_mod_eq_zero hp.den_even
  obtain ⟨m, rfl⟩ := Nat.dvd_of_mod_eq_zero hM
  rw [toNat_indexPattern s h, hd]
  exact Nat.mod_eq_zero_of_dvd ⟨s.toNat * (2 ^ p.e * d) + (k * d + m), by ring⟩

/-- What a pattern of the grid decodes to (R122). -/
theorem floatDecode_indexPattern (s : Bool) {k M : Nat} (h : p.InBinade k M) (hlt : k * p.den + M < p.infIndex) :
    floatDecode p (p.indexPattern s (k * p.den + M)) = .fin s M ((k : Int) + p.exponentMin - p.f) := by
  rcases Nat.lt_or_ge M p.den with hsub | hnorm
  · have hk : k = 0 := Nat.eq_zero_of_not_pos fun hk => absurd (h.le hk) (by omega)
    subst hk
    have hmask : 0 ≠ p.exponentMask := fun h0 => by simp [infIndex, ← h0] at hlt
    rw [indexPattern_mul_add s 0 hsub, floatDecode_assembleFloat p s (Nat.zero_le _) hsub, if_neg hmask,
      if_pos rfl, exponentMin]
    congr 1 <;> omega
  · obtain ⟨num, rfl⟩ := Nat.exists_eq_add_of_le hnorm
    have hnum : num < p.den := by have := h.lt; omega
    have hindex : k * p.den + (p.den + num) = (k + 1) * p.den + num := by ring
    rw [hindex] at hlt ⊢
    have hex : k + 1 < p.exponentMask := by
      refine Nat.lt_of_mul_lt_mul_right (a := p.den) ?_
      exact (Nat.le_add_right _ _).trans_lt hlt
    rw [indexPattern_mul_add s _ hnum, floatDecode_assembleFloat p s hex.le hnum, if_neg hex.ne,
      if_neg (Nat.succ_ne_zero k), exponentMin]
    congr 1 <;> omega

/-- Every pattern of a finite value is on the grid. -/
theorem exists_indexPattern {raw : BitVec p.width} (h : exponentField p raw ≠ p.exponentMask) : ∃ k M, p.InBinade k M
    ∧ k * p.den + M < p.infIndex ∧ raw = p.indexPattern (signField p raw) (k * p.den + M) := by
  have hfrac := fractionField_lt p raw
  have hex := lt_of_le_of_ne (exponentField_le p raw) h
  have hlt : exponentField p raw * p.den + fractionField p raw < p.infIndex := by
    have := Nat.mul_le_mul_right p.den hex
    rw [Nat.succ_mul] at this
    unfold infIndex
    omega
  have hraw := assembleFloat_fields p raw
  rw [← indexPattern_mul_add _ _ hfrac] at hraw
  rcases hk : exponentField p raw with _ | k
  · rw [hk] at hraw hlt
    exact ⟨0, _, ⟨by omega, by simp⟩, hlt, hraw.symm⟩
  · rw [hk] at hraw hlt
    have hindex : (k + 1) * p.den + fractionField p raw = k * p.den + (p.den + fractionField p raw) := by ring
    rw [hindex] at hraw hlt
    exact ⟨k, _, ⟨by omega, by simp⟩, hlt, hraw.symm⟩

/-- The finite patterns and their values, by binade and significand. -/
theorem isFin_iff {raw : BitVec p.width} {s : Bool} {q : ℚ} : (floatDecode p raw).IsFin s q ↔
    ∃ k M, p.InBinade k M ∧ k * p.den + M < p.infIndex ∧ raw = p.indexPattern s (k * p.den + M) ∧ q = M * p.ulp k := by
  constructor
  · rintro ⟨m, j, hfin, rfl⟩
    have hex : exponentField p raw ≠ p.exponentMask := by
      intro hex
      rcases eq_or_ne (fractionField p raw) 0 with hfr | hfr
      · rw [floatDecode_inf hex hfr] at hfin; cases hfin
      · rw [floatDecode_nan hex hfr] at hfin; cases hfin
    obtain ⟨k, M, hb, hlt, hraw⟩ := exists_indexPattern hex
    rw [hraw, floatDecode_indexPattern _ hb hlt] at hfin
    obtain ⟨hs, rfl, rfl⟩ := FloatVal.fin.inj hfin
    exact ⟨k, M, hb, hlt, hs ▸ hraw, magnitude_ulp M k⟩
  · rintro ⟨k, M, hb, hlt, rfl, rfl⟩
    exact ⟨M, _, floatDecode_indexPattern s hb hlt, magnitude_ulp M k⟩

theorem holds_iff {q : ℚ} : p.Holds q ↔ ∃ k M, p.InBinade k M ∧ k * p.den + M < p.infIndex ∧ q = M * p.ulp k := by
  constructor
  · rintro ⟨raw, s, h⟩
    obtain ⟨k, M, hb, hlt, -, hq⟩ := isFin_iff.1 h
    exact ⟨k, M, hb, hlt, hq⟩
  · rintro ⟨k, M, hb, hlt, hq⟩
    exact ⟨_, false, isFin_iff.2 ⟨k, M, hb, hlt, rfl, hq⟩⟩

/-- Two significands of a binade's end are the first of the next: `2 · den · ulp k = den · ulp (k + 1)`. -/
theorem isFin_indexPattern_of_le {k M : Nat} (hle : M ≤ 2 * p.den) (hden : 0 < k → p.den ≤ M)
    (hlt : k * p.den + M < p.infIndex) (s : Bool) :
    (floatDecode p (p.indexPattern s (k * p.den + M))).IsFin s (M * p.ulp k) := by
  rcases hle.lt_or_eq with hM | rfl
  · exact isFin_iff.2 ⟨k, M, ⟨hM, hden⟩, hlt, rfl, rfl⟩
  · have hindex : k * p.den + 2 * p.den = (k + 1) * p.den + p.den := by ring
    have hvalue : ((2 * p.den : Nat) : ℚ) * p.ulp k = p.den * p.ulp (k + 1) := by
      rw [ulp_add]; push_cast; ring
    rw [hindex] at hlt ⊢
    have hpos := p.den_pos
    exact isFin_iff.2 ⟨k + 1, p.den, ⟨by omega, fun _ => le_rfl⟩, hlt, rfl, hvalue⟩

/-! ## Where the grid ends -/

theorem Ok.infIndex_eq (hp : p.Ok) : p.infIndex = 2 * p.bias * p.den + p.den := by
  rw [infIndex, exponentMask_eq hp.1]; ring

theorem Ok.infIndex_le_iff (hp : p.Ok) {k M : Nat} (h : p.InBinade k M) :
    p.infIndex ≤ k * p.den + M ↔ 2 * p.bias ≤ k ∧ p.den ≤ M := by
  rw [hp.infIndex_eq]
  constructor
  · intro hle
    have hk : 2 * p.bias ≤ k := by
      have hlt : 2 * p.bias * p.den < (k + 1) * p.den := by linarith [h.lt]
      exact Nat.lt_succ_iff.1 (Nat.lt_of_mul_lt_mul_right hlt)
    refine ⟨hk, ?_⟩
    rcases Nat.eq_zero_or_pos k with rfl | hpos
    · exact le_trans (Nat.le_add_left _ _) (by simpa using hle)
    · exact h.le hpos
  · rintro ⟨hk, hM⟩
    exact Nat.add_le_add (Nat.mul_le_mul_right _ hk) hM

theorem InBinade.two_pow_le_iff {k M : Nat} (h : p.InBinade k M) :
    (2 : ℚ) ^ (p.exponentMax + 1) ≤ M * p.ulp k ↔ 2 * p.bias ≤ k ∧ p.den ≤ M := by
  constructor
  · intro hle
    have hk : 2 * p.bias ≤ k := by
      have hlt := hle.trans_lt h.lt_ulp
      rw [two_mul_den_mul_ulp, zpow_lt_zpow_iff_right₀ one_lt_two] at hlt
      unfold exponentMax exponentMin at hlt
      omega
    refine ⟨hk, ?_⟩
    rcases Nat.eq_zero_or_pos k with rfl | hpos
    · have hden : p.den * p.ulp 0 ≤ M * p.ulp 0 := by
        refine le_of_eq_of_le ?_ hle
        rw [den_mul_ulp, exponentMin, exponentMax]
        congr 1
        omega
      exact_mod_cast le_of_mul_le_mul_right hden (ulp_pos 0)
    · exact h.le hpos
  · rintro ⟨hk, hM⟩
    calc (2 : ℚ) ^ (p.exponentMax + 1)
      _ ≤ 2 ^ ((k : Int) + p.exponentMin) := by
        refine zpow_le_zpow_right₀ one_le_two ?_
        unfold exponentMax exponentMin
        omega
      _ = p.den * p.ulp k := (den_mul_ulp k).symm
      _ ≤ M * p.ulp k := mul_le_mul_of_nonneg_right (by exact_mod_cast hM) (ulp_pos k).le

/-- A value of the grid is finite in the format exactly when it is below `2^(exponent_max + 1)`. -/
theorem Ok.index_lt_iff (hp : p.Ok) {k M : Nat} (h : p.InBinade k M) :
    k * p.den + M < p.infIndex ↔ M * p.ulp k < 2 ^ (p.exponentMax + 1) := by
  rw [← not_le, ← not_le, hp.infIndex_le_iff h, h.two_pow_le_iff]

end FloatFmt

/-! ## FloatEncode as one rounding -/

/-- The pattern of a number, or overflow where it reaches that of infinity. -/
def encodeIndex (p : FloatFmt) (s : Bool) (n : Nat) : Encoded p.width :=
  if n < p.infIndex then .pattern (p.indexPattern s n) else .overflow

/-- The binade in which `m · 2^j` is rounded. -/
def binadeOf (p : FloatFmt) (m : Nat) (j : Int) : Nat := (binaryExponent m j - p.exponentMin).toNat

/-- `m · 2^j` in units of that binade's spacing. -/
def scaledIn (p : FloatFmt) (m : Nat) (j : Int) : Scaled :=
  scaleBy m (j - ((binadeOf p m j : Int) + p.exponentMin - p.f))

/-- The significand `m · 2^j` is rounded to. -/
def significandOf (p : FloatFmt) (m : Nat) (j : Int) : Nat := roundEven (scaledIn p m j)

section
variable {p : FloatFmt} {m : Nat} {j : Int}

theorem carryAndAssemble_eq (s : Bool) {ex num : Nat} (hex : ex < p.exponentMask) (hnum : num ≤ p.den) :
    carryAndAssemble p s ex num = encodeIndex p s (ex * p.den + num) := by
  unfold carryAndAssemble encodeIndex FloatFmt.infIndex
  rcases hnum.lt_or_eq with hlt | rfl
  · have hindex : ex * p.den + num < p.exponentMask * p.den := by
      have := Nat.mul_le_mul_right p.den (Nat.succ_le_of_lt hex)
      rw [Nat.succ_mul] at this
      omega
    rw [if_neg hlt.ne, if_pos hindex, FloatFmt.indexPattern_mul_add s ex hlt]
  · have hindex : ex * p.den + p.den = (ex + 1) * p.den + 0 := by ring
    have hover : (ex + 1) * p.den + 0 < p.exponentMask * p.den ↔ ¬ p.exponentMask ≤ ex + 1 := by
      rw [Nat.add_zero, Nat.mul_lt_mul_right p.den_pos, Nat.not_le]
    rw [if_pos rfl, hindex, FloatFmt.indexPattern_mul_add s _ p.den_pos]
    simp only [hover, ite_not]

theorem scaledIn_value : (scaledIn p m j).value * p.ulp (binadeOf p m j) = magnitude m j := by
  rw [scaledIn, scaleBy_value, FloatFmt.ulp, magnitude_mul_zpow]
  congr 1
  ring

theorem scaledIn_rem_lt : (scaledIn p m j).rem < (scaledIn p m j).unit := scaleBy_rem_lt _ _

theorem significandOf_nearestEven : NearestEven (scaledIn p m j).value (significandOf p m j) :=
  roundEven_nearestEven scaledIn_rem_lt

theorem scaledIn_value_le_iff {a : ℚ} : a ≤ (scaledIn p m j).value ↔ a * p.ulp (binadeOf p m j) ≤ magnitude m j := by
  rw [← scaledIn_value (p := p), mul_le_mul_iff_left₀ (FloatFmt.ulp_pos _)]

theorem scaledIn_value_lt_iff {a : ℚ} : (scaledIn p m j).value < a ↔ magnitude m j < a * p.ulp (binadeOf p m j) := by
  rw [← scaledIn_value (p := p), mul_lt_mul_iff_left₀ (FloatFmt.ulp_pos _)]

/-- The rounded binade reaches past the value. -/
theorem scaledIn_value_lt (hm : 0 < m) : (scaledIn p m j).value < 2 * p.den := by
  rw [scaledIn_value_lt_iff, FloatFmt.two_mul_den_mul_ulp]
  refine (binaryExponent_spec hm j).2.trans_le (zpow_le_zpow_right₀ one_le_two ?_)
  unfold binadeOf
  omega

/-- A normal value has a normal significand. -/
theorem den_le_scaledIn_value (hm : 0 < m) (hx : p.exponentMin ≤ binaryExponent m j) :
    (p.den : ℚ) ≤ (scaledIn p m j).value := by
  rw [scaledIn_value_le_iff, FloatFmt.den_mul_ulp]
  refine (zpow_le_zpow_right₀ one_le_two ?_).trans (binaryExponent_spec hm j).1
  unfold binadeOf
  omega

theorem significandOf_le (hm : 0 < m) : significandOf p m j ≤ 2 * p.den :=
  significandOf_nearestEven.le_of_ge (by exact_mod_cast (scaledIn_value_lt hm).le)

theorem den_le_significandOf (hm : 0 < m) (hx : p.exponentMin ≤ binaryExponent m j) : p.den ≤ significandOf p m j :=
  significandOf_nearestEven.le_of_le (den_le_scaledIn_value hm hx)

theorem exponentMin_le_of_binadeOf_pos (h : 0 < binadeOf p m j) : p.exponentMin ≤ binaryExponent m j := by
  unfold binadeOf at h
  omega

/-! ### The ranges of the binary exponent (R127) -/

theorem encodeIndex_of_large (hp : p.Ok) (hm : 0 < m) (hx : p.exponentMax < binaryExponent m j) (s : Bool) :
    encodeIndex p s (binadeOf p m j * p.den + significandOf p m j) = .overflow := by
  unfold FloatFmt.exponentMax at hx
  have hk : 2 * p.bias ≤ binadeOf p m j := by unfold binadeOf FloatFmt.exponentMin; omega
  have hden : p.den ≤ significandOf p m j := den_le_significandOf hm (by unfold FloatFmt.exponentMin; omega)
  refine if_neg (Nat.not_lt.2 ?_)
  rw [hp.infIndex_eq]
  exact Nat.add_le_add (Nat.mul_le_mul_right _ hk) hden

theorem binadeOf_subnormal (hx : binaryExponent m j < p.exponentMin) : binadeOf p m j = 0 := by
  unfold binadeOf
  omega

theorem binadeOf_flush (hx : binaryExponent m j < p.minNormalizedExponent) : binadeOf p m j = 0 :=
  binadeOf_subnormal (by unfold FloatFmt.minNormalizedExponent at hx; omega)

/-- What is flushed is less than half a step. -/
theorem significandOf_flush (hm : 0 < m) (hx : binaryExponent m j < p.minNormalizedExponent) :
    significandOf p m j = 0 := by
  have hlt : (scaledIn p m j).value < 1 / 2 := by
    rw [scaledIn_value_lt_iff, binadeOf_flush hx]
    refine (binaryExponent_spec hm j).2.trans_le ?_
    calc (2 : ℚ) ^ (binaryExponent m j + 1)
      _ ≤ 2 ^ (p.exponentMin - p.f - 1) := by
        refine zpow_le_zpow_right₀ one_le_two ?_
        unfold FloatFmt.minNormalizedExponent at hx
        omega
      _ = 1 / 2 * p.ulp 0 := by
        rw [FloatFmt.ulp, zpow_sub_one₀ two_ne_zero, Nat.cast_zero, zero_add]
        ring
  have hnear := abs_le.1 (significandOf_nearestEven (p := p) (m := m) (j := j)).near
  have hone : (significandOf p m j : ℚ) < 1 := by linarith
  exact Nat.lt_one_iff.1 (by exact_mod_cast hone)

theorem encodeIndex_zero (hp : p.Ok) (s : Bool) : encodeIndex p s (0 * p.den + 0) = .pattern (assembleFloat p s 0 0) := by
  rw [Nat.zero_mul, ← FloatFmt.indexPattern_zero]
  exact if_pos (Nat.mul_pos hp.exponentMask_pos p.den_pos)

theorem storedExponent_subnormal (hx : binaryExponent m j < p.exponentMin) :
    storedExponent p (binaryExponent m j) = 0 := if_pos hx

theorem scaledFraction_subnormal (hx : binaryExponent m j < p.exponentMin) :
    scaledFraction p m j (binaryExponent m j) = scaledIn p m j := by
  rw [scaledFraction, if_pos hx, scaledIn, binadeOf_subnormal hx]
  congr 1
  push_cast
  ring

theorem significandOf_le_den (hm : 0 < m) (hx : binaryExponent m j < p.exponentMin) :
    significandOf p m j ≤ p.den := by
  refine significandOf_nearestEven.le_of_ge (le_of_lt ?_)
  rw [scaledIn_value_lt_iff, FloatFmt.den_mul_ulp, binadeOf_subnormal hx]
  refine (binaryExponent_spec hm j).2.trans_le (zpow_le_zpow_right₀ one_le_two ?_)
  omega

theorem storedExponent_normal (hx : p.exponentMin ≤ binaryExponent m j) :
    storedExponent p (binaryExponent m j) = binadeOf p m j + 1 := by
  rw [storedExponent, if_neg (by omega), binadeOf]
  unfold FloatFmt.exponentMin at *
  omega

theorem binadeOf_succ_lt (hp : p.Ok) (hmax : ¬ p.exponentMax < binaryExponent m j)
    (hx : p.exponentMin ≤ binaryExponent m j) : binadeOf p m j + 1 < p.exponentMask := by
  rw [FloatFmt.exponentMask_eq hp.1, binadeOf]
  unfold FloatFmt.exponentMax FloatFmt.exponentMin at *
  omega

theorem scaledFraction_normal (hx : p.exponentMin ≤ binaryExponent m j) : scaledFraction p m j (binaryExponent m j)
    = { scaledIn p m j with floor := (scaledIn p m j).floor - p.den } := by
  have hexp : j - binaryExponent m j + p.f = j - ((binadeOf p m j : Int) + p.exponentMin - p.f) := by
    unfold binadeOf
    omega
  rw [scaledFraction, if_neg (by omega), scaledIn, hexp]

theorem roundEven_scaledFraction_normal (hp : p.Ok) (hm : 0 < m) (hx : p.exponentMin ≤ binaryExponent m j) :
    roundEven (scaledFraction p m j (binaryExponent m j)) = significandOf p m j - p.den := by
  rw [scaledFraction_normal hx, significandOf]
  exact roundEven_sub_floor hp.den_even (Scaled.le_floor_of_le scaledIn_rem_lt (den_le_scaledIn_value hm hx))

/-- FloatEncode of a finite value other than zero is its rounded significand, as the number of a pattern (R126 to
R129): the stored exponent, the carry and the two cut-offs all come out of that one number. -/
theorem floatEncode_fin (hp : p.Ok) (hm : 0 < m) (s : Bool) :
    floatEncode p (.fin s m j) = encodeIndex p s (binadeOf p m j * p.den + significandOf p m j) := by
  have hsplit : floatEncode p (.fin s m j) = if p.exponentMax < binaryExponent m j then .overflow
      else if binaryExponent m j < p.minNormalizedExponent then .pattern (assembleFloat p s 0 0)
      else carryAndAssemble p s (storedExponent p (binaryExponent m j))
        (roundEven (scaledFraction p m j (binaryExponent m j))) := if_neg hm.ne'
  rw [hsplit]
  split_ifs with hmax hmin
  · exact (encodeIndex_of_large hp hm hmax s).symm
  · rw [binadeOf_flush hmin, significandOf_flush hm hmin, encodeIndex_zero hp]
  · rcases lt_or_ge (binaryExponent m j) p.exponentMin with hsub | hnorm
    · rw [storedExponent_subnormal hsub, scaledFraction_subnormal hsub, ← significandOf,
        carryAndAssemble_eq s hp.exponentMask_pos (significandOf_le_den hm hsub), binadeOf_subnormal hsub]
    · have hden := den_le_significandOf hm hnorm
      have hle := significandOf_le (p := p) (j := j) hm
      rw [storedExponent_normal hnorm, roundEven_scaledFraction_normal hp hm hnorm,
        carryAndAssemble_eq s (binadeOf_succ_lt hp hmax hnorm) (by omega)]
      congr 1
      rw [Nat.succ_mul]
      omega

end

end Sys2Proof

/-! PROOFS. The float laws (spec/41_float_codec.md R131, R137, R139, R142, R144): rounding to nearest even, the overflow
threshold, the round trips, and the native format. -/

namespace Sys2Proof

section
variable {p : FloatFmt} {m : Nat} {j : Int}

/-! ## What FloatEncode gives -/

theorem encodeIndex_eq_pattern {s : Bool} {n : Nat} {raw : BitVec p.width} :
    encodeIndex p s n = .pattern raw ↔ n < p.infIndex ∧ p.indexPattern s n = raw := by
  unfold encodeIndex
  split
  · next h => simp [h]
  · next h => simp [h]

theorem encodeIndex_eq_overflow {s : Bool} {n : Nat} : encodeIndex p s n = .overflow ↔ p.infIndex ≤ n := by
  unfold encodeIndex
  split
  · next h => simpa using h
  · next h => simpa using h

/-- The pattern of a finite value decodes to its rounded value, which keeps its sign. -/
theorem isFin_of_floatEncode (hp : p.Ok) (hm : 0 < m) {s : Bool} {raw : BitVec p.width}
    (h : floatEncode p (.fin s m j) = .pattern raw) :
    (floatDecode p raw).IsFin s (significandOf p m j * p.ulp (binadeOf p m j)) := by
  rw [floatEncode_fin hp hm, encodeIndex_eq_pattern] at h
  obtain ⟨hlt, rfl⟩ := h
  exact FloatFmt.isFin_indexPattern_of_le (significandOf_le hm)
    (fun hk => den_le_significandOf hm (exponentMin_le_of_binadeOf_pos hk)) hlt s

/-! ## Nearest even -/

/-- Below a binade that is not the lowest, all values of the format are below its first one; the others are its own
multiples. -/
theorem FloatFmt.Holds.eq_mul_or_lt {q : ℚ} (h : p.Holds q) (k : Nat) :
    (∃ z : Nat, q = z * p.ulp k) ∨ (0 < k ∧ q < p.den * p.ulp k) := by
  obtain ⟨k', M, hb, -, rfl⟩ := FloatFmt.holds_iff.1 h
  rcases Nat.lt_or_ge k' k with hlt | hge
  · exact .inr ⟨by omega, hb.lt_of_lt hlt⟩
  · obtain ⟨i, rfl⟩ := Nat.exists_eq_add_of_le hge
    exact .inl ⟨M * 2 ^ i, by rw [FloatFmt.ulp_add]; push_cast; ring⟩

/-- The distance of a multiple of the spacing, in units of it. -/
theorem abs_magnitude_sub (z : Nat) : |magnitude m j - z * p.ulp (binadeOf p m j)|
    = |(scaledIn p m j).value - z| * p.ulp (binadeOf p m j) := by
  rw [← abs_of_pos (FloatFmt.ulp_pos (binadeOf p m j)), ← abs_mul, abs_of_pos (FloatFmt.ulp_pos _), sub_mul,
    scaledIn_value]

theorem dist_significandOf_le (z : Nat) : |magnitude m j - significandOf p m j * p.ulp (binadeOf p m j)|
    ≤ |magnitude m j - z * p.ulp (binadeOf p m j)| := by
  rw [abs_magnitude_sub, abs_magnitude_sub]
  exact mul_le_mul_of_nonneg_right (significandOf_nearestEven.dist_le z) (FloatFmt.ulp_pos _).le

/-- A value below the rounded binade is farther than the binade's first value. -/
theorem dist_significandOf_lt (hm : 0 < m) (hk : 0 < binadeOf p m j) {q : ℚ} (hq : q < p.den * p.ulp (binadeOf p m j)) :
    |magnitude m j - significandOf p m j * p.ulp (binadeOf p m j)| < |magnitude m j - q| := by
  have hfirst : p.den * p.ulp (binadeOf p m j) ≤ magnitude m j :=
    scaledIn_value_le_iff.1 (den_le_scaledIn_value hm (exponentMin_le_of_binadeOf_pos hk))
  refine (dist_significandOf_le p.den).trans_lt ?_
  rw [abs_of_nonneg (by linarith), abs_of_pos (by linarith)]
  linarith

/-- Settles O52: a value of the format is a multiple of the spacing at the rounded value, where `NearestEven` decides, or
lies below that binade and is farther (`dist_significandOf_lt`); the parity of the pattern is that of the significand
(`Ok.indexPattern_even`). -/
theorem encodeRoundsToNearestEven : Obligations.EncodeRoundsToNearestEven := by
  intro p s m j raw hp hm h
  refine ⟨_, isFin_of_floatEncode hp hm h, fun q' hq' => ?_⟩
  rw [floatEncode_fin hp hm, encodeIndex_eq_pattern] at h
  obtain ⟨hlt, rfl⟩ := h
  rcases hq'.eq_mul_or_lt (binadeOf p m j) with ⟨z, rfl⟩ | ⟨hk, hbelow⟩
  · refine ⟨dist_significandOf_le z, fun hne heq => hp.indexPattern_even s hlt ?_⟩
    rw [abs_magnitude_sub, abs_magnitude_sub] at heq
    refine significandOf_nearestEven.even_of_dist_eq (z := z) ?_ (mul_right_cancel₀ (FloatFmt.ulp_pos _).ne' heq)
    rintro rfl
    exact hne rfl
  · have hfar := dist_significandOf_lt hm hk hbelow
    exact ⟨hfar.le, fun _ heq => absurd heq hfar.ne⟩

/-! ## The overflow threshold -/

/-- The binade of the largest finite values. -/
def FloatFmt.lastBinade (p : FloatFmt) : Nat := 2 * p.bias - 1

/-- The number of significands up to the end of that binade: with E = 1 there is only binade 0, without normal values. -/
def FloatFmt.lastCount (p : FloatFmt) : Nat := if p.bias = 0 then p.den else 2 * p.den

/-- The largest finite value, and the one `i` steps below it. -/
def FloatFmt.fromTop (p : FloatFmt) (i : Nat) : ℚ := ((p.lastCount - (i + 1) : Nat) : ℚ) * p.ulp p.lastBinade

namespace FloatFmt

theorem Ok.infIndex_eq_last (hp : p.Ok) : p.infIndex = p.lastBinade * p.den + p.lastCount := by
  rw [hp.infIndex_eq, lastBinade, lastCount]
  rcases Nat.eq_zero_or_pos p.bias with h0 | hpos
  · simp [h0]
  · obtain ⟨b, hb⟩ := Nat.exists_eq_add_of_le' hpos
    rw [if_neg hpos.ne', hb, show 2 * (b + 1) - 1 = 2 * b + 1 by omega]
    ring

theorem lastCount_of_lastBinade_pos (h : 0 < p.lastBinade) : p.lastCount = 2 * p.den := by
  rw [lastCount, if_neg]
  unfold lastBinade at h
  omega

theorem Ok.lastCount_bounds (hp : p.Ok) : 2 ≤ p.lastCount ∧ p.den ≤ p.lastCount ∧ p.lastCount ≤ 2 * p.den := by
  have := hp.two_le_den
  unfold lastCount
  split <;> omega

theorem Ok.lastCount_even (hp : p.Ok) : p.lastCount % 2 = 0 := by
  have := hp.den_even
  unfold lastCount
  split <;> omega

theorem fromTop_eq (hp : p.Ok) {i : Nat} (hi : i < 2) : p.fromTop i = (p.lastCount - (i + 1)) * p.ulp p.lastBinade := by
  have := hp.lastCount_bounds
  rw [fromTop, Nat.cast_sub (by omega)]
  push_cast
  ring

theorem fromTop_one_lt (hp : p.Ok) : p.fromTop 1 < p.fromTop 0 := by
  rw [fromTop_eq hp one_lt_two, fromTop_eq hp two_pos]
  refine mul_lt_mul_of_pos_right ?_ (ulp_pos _)
  push_cast
  linarith

/-- Half a spacing above the largest value. -/
theorem threshold_eq (hp : p.Ok) :
    p.fromTop 0 + (p.fromTop 0 - p.fromTop 1) / 2 = (p.lastCount - 1 / 2) * p.ulp p.lastBinade := by
  rw [fromTop_eq hp two_pos, fromTop_eq hp one_lt_two]
  push_cast
  ring

theorem holds_fromTop (hp : p.Ok) {i : Nat} (hi : i < 2) : p.Holds (p.fromTop i) := by
  have hbounds := hp.lastCount_bounds
  have hden := hp.two_le_den
  refine holds_iff.2 ⟨_, p.lastCount - (i + 1), ⟨by omega, fun hpos => ?_⟩, ?_, rfl⟩
  · rw [lastCount_of_lastBinade_pos hpos]
    omega
  · rw [hp.infIndex_eq_last]
    omega

/-- The value of a lower binade is not above the second largest. -/
theorem lt_fromTop_one (hp : p.Ok) {k M : Nat} (hb : p.InBinade k M) (hk : k < p.lastBinade) :
    M * p.ulp k < p.fromTop 1 := by
  have hden := hp.two_le_den
  have hcount := lastCount_of_lastBinade_pos (p := p) (by omega)
  refine (hb.lt_of_lt hk).trans_le (mul_le_mul_of_nonneg_right ?_ (ulp_pos _).le)
  exact_mod_cast (by omega : p.den ≤ p.lastCount - (1 + 1))

/-- A value of the format is one of the last binade, or not above the second largest. -/
theorem Holds.last_or_lt {q : ℚ} (hp : p.Ok) (h : p.Holds q) :
    (∃ i < p.lastCount, q = p.fromTop i) ∨ q < p.fromTop 1 := by
  obtain ⟨k, M, hb, hlt, rfl⟩ := holds_iff.1 h
  rw [hp.infIndex_eq_last] at hlt
  rcases Nat.lt_trichotomy k p.lastBinade with hk | rfl | hk
  · exact .inr (lt_fromTop_one hp hb hk)
  · refine .inl ⟨p.lastCount - 1 - M, by omega, ?_⟩
    rw [fromTop, show p.lastCount - (p.lastCount - 1 - M + 1) = M by omega]
  · have hM := hb.le (by omega)
    have hmul := Nat.mul_le_mul_right p.den (Nat.succ_le_of_lt hk)
    have hbounds := hp.lastCount_bounds
    rw [Nat.succ_mul] at hmul
    omega

theorem fromTop_anti {i i' : Nat} (h : i ≤ i') : p.fromTop i' ≤ p.fromTop i :=
  mul_le_mul_of_nonneg_right (by exact_mod_cast (by omega : p.lastCount - (i' + 1) ≤ p.lastCount - (i + 1)))
    (ulp_pos _).le

theorem isGreatest_fromTop_zero (hp : p.Ok) : IsGreatest {q | p.Holds q} (p.fromTop 0) := by
  refine ⟨holds_fromTop hp two_pos, fun q hq => ?_⟩
  rcases Holds.last_or_lt hp hq with ⟨i, -, rfl⟩ | hlt
  · exact fromTop_anti (Nat.zero_le i)
  · exact (hlt.trans (fromTop_one_lt hp)).le

theorem isGreatest_fromTop_one (hp : p.Ok) : IsGreatest {q | p.Holds q ∧ q < p.fromTop 0} (p.fromTop 1) := by
  refine ⟨⟨holds_fromTop hp one_lt_two, fromTop_one_lt hp⟩, fun q ⟨hq, hlt⟩ => ?_⟩
  rcases Holds.last_or_lt hp hq with ⟨i, -, rfl⟩ | hlt'
  · rcases Nat.eq_zero_or_pos i with rfl | hi
    · exact absurd hlt (lt_irrefl _)
    · exact fromTop_anti hi
  · exact hlt'.le

end FloatFmt

/-- A value rounded in a lower binade is below binade `k`. -/
theorem magnitude_lt_of_binadeOf_lt (hm : 0 < m) {k : Nat} (hk : binadeOf p m j < k) :
    magnitude m j < p.den * p.ulp k := by
  have hstep := mul_le_mul_of_nonneg_left (FloatFmt.two_mul_ulp_le (p := p) hk) (Nat.cast_nonneg' p.den)
  have hlt := scaledIn_value_lt_iff.1 (scaledIn_value_lt (p := p) (j := j) hm)
  linarith

/-- A value rounded in a higher binade is beyond binade `k`. -/
theorem le_magnitude_of_lt_binadeOf (hm : 0 < m) {k : Nat} (hk : k < binadeOf p m j) :
    2 * p.den * p.ulp k ≤ magnitude m j := by
  have hstep := mul_le_mul_of_nonneg_left (FloatFmt.two_mul_ulp_le (p := p) hk) (Nat.cast_nonneg' p.den)
  have hx := exponentMin_le_of_binadeOf_pos (p := p) (m := m) (j := j) (by omega)
  have hle := scaledIn_value_le_iff.1 (den_le_scaledIn_value hm hx)
  linarith

/-- The pattern number of a value reaches infinity's exactly from half a spacing above the largest finite value. -/
theorem infIndex_le_iff_threshold (hp : p.Ok) (hm : 0 < m) :
    p.infIndex ≤ binadeOf p m j * p.den + significandOf p m j
      ↔ (p.lastCount - 1 / 2) * p.ulp p.lastBinade ≤ magnitude m j := by
  obtain ⟨hpos, -, hcount⟩ := hp.lastCount_bounds
  have hden := hp.two_le_den
  have hulp := FloatFmt.ulp_pos (p := p) p.lastBinade
  rw [hp.infIndex_eq_last]
  rcases Nat.lt_trichotomy (binadeOf p m j) p.lastBinade with hk | hk | hk
  · have hlast := FloatFmt.lastCount_of_lastBinade_pos (Nat.zero_lt_of_lt hk)
    refine iff_of_false (Nat.not_le.2 ?_) (not_le.2 ?_)
    · have hsig := significandOf_le (p := p) (j := j) hm
      have hmul := Nat.mul_le_mul_right p.den (Nat.succ_le_of_lt hk)
      rw [Nat.succ_mul] at hmul
      omega
    · refine (magnitude_lt_of_binadeOf_lt hm hk).trans_le (mul_le_mul_of_nonneg_right ?_ hulp.le)
      have hone : (1 : ℚ) ≤ p.den := by exact_mod_cast p.den_pos
      rw [hlast]
      push_cast
      linarith
  · rw [hk, Nat.add_le_add_iff_left, ← hk, ← scaledIn_value_le_iff]
    exact significandOf_nearestEven.even_le_iff hp.lastCount_even (Nat.zero_lt_of_lt hpos)
  · refine iff_of_true ?_ ?_
    · have hsig : p.den ≤ significandOf p m j :=
        den_le_significandOf hm (exponentMin_le_of_binadeOf_pos (Nat.zero_lt_of_lt hk))
      have hmul := Nat.mul_le_mul_right p.den (Nat.succ_le_of_lt hk)
      rw [Nat.succ_mul] at hmul
      omega
    · refine (mul_le_mul_of_nonneg_right ?_ hulp.le).trans (le_magnitude_of_lt_binadeOf hm hk)
      have hcountq : (p.lastCount : ℚ) ≤ 2 * p.den := by exact_mod_cast hcount
      linarith

/-- With E ≥ 2 the last binade is the one of `exponent_max`, and it is full. -/
theorem threshold_normal (he : 2 ≤ p.e) : ((p.lastCount : ℚ) - 1 / 2) * p.ulp p.lastBinade
    = (2 - (2 : ℚ) ^ (-((p.f : Int) + 1))) * 2 ^ p.exponentMax := by
  have hbias : 0 < p.bias := by
    have := Nat.pow_le_pow_right two_pos (Nat.sub_le_sub_right he 1)
    unfold FloatFmt.bias
    omega
  have hlast : (p.lastBinade : Int) + p.exponentMin = p.exponentMax := by
    unfold FloatFmt.lastBinade FloatFmt.exponentMin FloatFmt.exponentMax
    omega
  have hcount : p.lastCount = 2 * p.den := if_neg hbias.ne'
  have hulp : p.ulp p.lastBinade = 2 ^ (-(p.f : Int)) * 2 ^ p.exponentMax := by
    rw [FloatFmt.ulp, hlast, ← zpow_add₀ two_ne_zero, neg_add_eq_sub]
  have hfull : p.den * p.ulp p.lastBinade = 2 ^ p.exponentMax := by rw [FloatFmt.den_mul_ulp, hlast]
  calc ((p.lastCount : ℚ) - 1 / 2) * p.ulp p.lastBinade
    _ = 2 * (p.den * p.ulp p.lastBinade) - 1 / 2 * p.ulp p.lastBinade := by rw [hcount]; push_cast; ring
    _ = (2 - 2 ^ (-(p.f : Int)) * 2⁻¹) * 2 ^ p.exponentMax := by rw [hfull, hulp]; ring
    _ = (2 - 2 ^ (-((p.f : Int) + 1))) * 2 ^ p.exponentMax := by rw [neg_add, zpow_add₀ two_ne_zero, zpow_neg_one]

/-- Settles O53: the two greatest elements are the ends of the last binade (`isGreatest_fromTop_zero`,
`isGreatest_fromTop_one`), and the threshold is that of the pattern number (`infIndex_le_iff_threshold`). -/
theorem overflowThreshold : Obligations.OverflowThreshold := by
  intro p hp
  refine ⟨_, _, FloatFmt.isGreatest_fromTop_zero hp, FloatFmt.isGreatest_fromTop_one hp, fun he => ?_,
    fun s m j hm => ?_⟩ <;> rw [FloatFmt.threshold_eq hp]
  · exact threshold_normal he
  · rw [floatEncode_fin hp hm, encodeIndex_eq_overflow, infIndex_le_iff_threshold hp hm]

/-! ## Infinities and NaN -/

theorem floatDecode_infinity (p : FloatFmt) (s : Bool) : floatDecode p (assembleFloat p s p.exponentMask 0) = .inf s := by
  rw [floatDecode_assembleFloat p s le_rfl p.den_pos, if_pos rfl, if_pos rfl]

theorem floatDecode_quiet (s : Bool) {num : Nat} (h0 : num ≠ 0) (hlt : num < p.den) :
    floatDecode p (assembleFloat p s p.exponentMask num) = .nan := by
  rw [floatDecode_assembleFloat p s le_rfl hlt, if_pos rfl, if_neg h0]

theorem FloatFmt.Ok.half_lt_den (hp : p.Ok) : 2 ^ (p.f - 1) < p.den :=
  Nat.pow_lt_pow_right Nat.one_lt_two (Nat.sub_lt hp.2 Nat.one_pos)

/-- The canonical NaN is a NaN (R125, R142). -/
theorem floatDecode_canonicalNaN (hp : p.Ok) (s : Bool) :
    floatDecode p (assembleFloat p s p.exponentMask (2 ^ (p.f - 1))) = .nan :=
  floatDecode_quiet s (Nat.two_pow_pos _).ne' hp.half_lt_den

/-- A finite value is packed as a finite one, if at all. -/
theorem exists_isFin_of_floatEncode (hp : p.Ok) {s : Bool} {raw : BitVec p.width}
    (h : floatEncode p (.fin s m j) = .pattern raw) : ∃ q, (floatDecode p raw).IsFin s q := by
  rcases Nat.eq_zero_or_pos m with rfl | hm
  · rw [floatEncode_zero] at h
    cases h
    exact ⟨_, 0, _, floatDecode_zero hp.1 s, rfl⟩
  · exact ⟨_, isFin_of_floatEncode hp hm h⟩

theorem floatEncode_of_large (hm : 0 < m) (h : (2 : ℚ) ^ (p.exponentMax + 1) ≤ magnitude m j) (s : Bool) :
    floatEncode p (.fin s m j) = .overflow := by
  have hx := (zpow_lt_zpow_iff_right₀ one_lt_two).1 (h.trans_lt (binaryExponent_spec hm j).2)
  exact (if_neg hm.ne').trans (if_pos (by omega))

/-- Settles O54: NaN and the infinities are packed as themselves, a finite value as a finite one
(`exists_isFin_of_floatEncode`), and one past `exponent_max` not at all (`floatEncode_of_large`). -/
theorem finiteNeverSaturates : Obligations.FiniteNeverSaturates := by
  intro p val hp
  refine ⟨fun raw h => ?_, fun s m j hval hlarge => ?_⟩
  · cases val with
    | nan =>
      cases h
      simp [floatDecode_canonicalNaN hp]
    | inf s =>
      cases h
      simp [floatDecode_infinity]
    | fin s m j =>
      obtain ⟨q, m', j', hfin, -⟩ := exists_isFin_of_floatEncode hp h
      simp [hfin]
  · subst hval
    refine floatEncode_of_large (Nat.pos_of_ne_zero ?_) hlarge s
    rintro rfl
    rw [magnitude_eq_zero.2 rfl] at hlarge
    exact absurd hlarge (not_le.2 (by positivity))

/-! ## Exact values -/

/-- A value of the grid is rounded in its own binade. -/
theorem binadeOf_eq (hm : 0 < m) {k M : Nat} (hb : p.InBinade k M) (hq : magnitude m j = M * p.ulp k) :
    binadeOf p m j = k := by
  rcases Nat.lt_trichotomy (binadeOf p m j) k with hlt | heq | hgt
  · have hlow := magnitude_lt_of_binadeOf_lt hm hlt
    linarith [hb.den_mul_le (by omega)]
  · exact heq
  · have hhigh := le_magnitude_of_lt_binadeOf hm hgt
    linarith [hb.lt_ulp]

/-- In that binade it is a natural number of spacings. -/
theorem scaledIn_value_eq (hm : 0 < m) {k M : Nat} (hb : p.InBinade k M) (hq : magnitude m j = M * p.ulp k) :
    (scaledIn p m j).value = M := by
  refine mul_right_cancel₀ (FloatFmt.ulp_pos (p := p) k).ne' ?_
  rw [← hq, ← scaledIn_value (p := p), binadeOf_eq hm hb hq]

/-- A finite value that a pattern decodes to is packed as that pattern, however it is written (R137). -/
theorem floatEncode_of_isFin (hp : p.Ok) {val : FloatVal} {s : Bool} {q : ℚ} {raw : BitVec p.width}
    (hval : val.IsFin s q) (hraw : (floatDecode p raw).IsFin s q) : floatEncode p val = .pattern raw := by
  obtain ⟨m, j, rfl, hq⟩ := hval
  obtain ⟨k, M, hb, hlt, rfl, rfl⟩ := FloatFmt.isFin_iff.1 hraw
  rcases Nat.eq_zero_or_pos m with rfl | hm
  · have hM : M = 0 := by
      rw [magnitude_eq_zero.2 rfl, zero_eq_mul, or_iff_left (FloatFmt.ulp_pos k).ne'] at hq
      exact_mod_cast hq
    have hk : k = 0 := Nat.eq_zero_of_not_pos fun hk => absurd (hb.le hk) (by have := p.den_pos; omega)
    rw [floatEncode_zero, hM, hk, Nat.zero_mul, FloatFmt.indexPattern_zero]
  · have hsig : significandOf p m j = M := significandOf_nearestEven.eq_of_eq (scaledIn_value_eq hm hb hq)
    rw [floatEncode_fin hp hm, binadeOf_eq hm hb hq, hsig]
    exact if_pos hlt

/-- A pattern that decodes to an infinity is the infinity of that sign. -/
theorem eq_of_floatDecode_inf {raw : BitVec p.width} {s : Bool} (h : floatDecode p raw = .inf s) :
    raw = assembleFloat p s p.exponentMask 0 := by
  rcases ne_or_eq (exponentField p raw) p.exponentMask with hex | hex
  · obtain ⟨m, j, hfin, -⟩ := floatDecode_isFin hex rfl
    rw [h] at hfin
    cases hfin
  · rcases ne_or_eq (fractionField p raw) 0 with hfr | hfr
    · rw [floatDecode_nan hex hfr] at h
      cases h
    · rw [floatDecode_inf hex hfr] at h
      cases h
      rw [← hex, ← hfr, assembleFloat_fields]

/-- Settles O55: an infinity has one pattern (`eq_of_floatDecode_inf`), and a finite value is packed as the pattern it
came from (`floatEncode_of_isFin`). -/
theorem floatPatternRoundTrip : Obligations.FloatPatternRoundTrip := by
  intro p raw hp hnan
  cases h : floatDecode p raw with
  | nan => exact absurd h hnan
  | inf s => exact congrArg _ (eq_of_floatDecode_inf h).symm
  | fin s m j => exact floatEncode_of_isFin hp ⟨m, j, rfl, rfl⟩ ⟨m, j, h, rfl⟩

/-! ## The native format -/

/-- What is on the grid is exact for every NATIVE_ROUND (R131). -/
theorem isExact_of_inBinade (hp : p.Ok) {k M : Nat} (hb : p.InBinade k M) (hlt : k * p.den + M < p.infIndex)
    (hq : magnitude m j = M * p.ulp k) : isExact p m j = true := by
  rcases Nat.eq_zero_or_pos m with rfl | hm
  · exact isExact_zero p j
  have hvalue := scaledIn_value_eq hm hb hq
  have hrem := Scaled.rem_eq_zero_of_value_eq scaledIn_rem_lt hvalue
  have hmax : binaryExponent m j ≤ p.exponentMax := by
    rw [hp.index_lt_iff hb, ← hq] at hlt
    have := (zpow_lt_zpow_iff_right₀ one_lt_two).1 ((binaryExponent_spec hm j).1.trans_lt hlt)
    omega
  have hmin : p.minNormalizedExponent ≤ binaryExponent m j := by
    by_contra hlow
    have hzero := significandOf_flush hm (not_le.1 hlow)
    rw [significandOf_nearestEven.eq_of_eq hvalue] at hzero
    rw [hzero, Nat.cast_zero, zero_mul, magnitude_eq_zero] at hq
    omega
  have hfrac : (scaledFraction p m j (binaryExponent m j)).rem = 0 := by
    rcases lt_or_ge (binaryExponent m j) p.exponentMin with hsub | hnorm
    · rw [scaledFraction_subnormal hsub, hrem]
    · rw [scaledFraction_normal hnorm, hrem]
  simp [isExact, hmin, hmax, hfrac]

/-- A value that a native pattern decodes to is answered as that pattern, under every NATIVE_ROUND (R131). -/
theorem nativeEncode_of_isFin (nr : NativeRound) (nb : NanBits) {w : Nat} {val : FloatVal}
    {x : BitVec (nativeFmt w).width} {s : Bool} {q : ℚ} (hval : val.IsFin s q) (hx : (nativeDecode w x).IsFin s q) :
    nativeEncode nr nb w val = x := by
  have hencode := floatEncode_of_isFin (nativeFmt_ok w) hval hx
  obtain ⟨m, j, rfl, hq⟩ := hval
  obtain ⟨k, M, hb, hlt, -, hqM⟩ := FloatFmt.isFin_iff.1 hx
  rw [nativeEncode, nativeRound_of_isExact (isExact_of_inBinade (nativeFmt_ok w) hb hlt (hq.trans hqM)), nativeRne,
    hencode]

theorem toNat_infinity (p : FloatFmt) (s : Bool) : (assembleFloat p s p.exponentMask 0).toNat
    = s.toNat * 2 ^ (p.e + p.f) + (2 ^ p.e - 1) * 2 ^ p.f := toNat_assembleFloat_exponentMask p s p.den_pos

/-- Settles O56: a native value is exact (`nativeEncode_of_isFin`), an infinity is its pattern (`toNat_infinity`), and the
default conversion is FloatEncode in the native format, with its overflow an infinity. -/
theorem nativeEncodeIsExact : Obligations.NativeEncodeIsExact := by
  refine ⟨fun nr nb w val x s q => nativeEncode_of_isFin nr nb, fun nr nb w s => toNat_infinity _ s,
    fun nb w s m j => ⟨fun raw h => ?_, fun h => ?_⟩⟩ <;> rw [nativeEncode, nativeRound, nativeRne, h]
  exact toNat_infinity _ s

/-- A significand of the format's length, at or above the smallest spacing, is on the grid. -/
theorem exists_inBinade (hm : 0 < m) (hlen : m < 2 * p.den) (hj : p.exponentMin - p.f ≤ j) :
    ∃ k M, p.InBinade k M ∧ magnitude m j = M * p.ulp k := by
  have hlog : Nat.log2 m ≤ p.f := by
    refine Nat.lt_succ_iff.1 ((Nat.log2_lt hm.ne').2 ?_)
    rwa [pow_succ, mul_comm]
  have hd : 0 ≤ j - ((binadeOf p m j : Int) + p.exponentMin - p.f) := by
    unfold binadeOf binaryExponent
    omega
  obtain ⟨d, hd⟩ := Int.eq_ofNat_of_zero_le hd
  have hvalue : (scaledIn p m j).value = (m * 2 ^ d : Nat) := by
    rw [scaledIn, hd, scaleBy_value, magnitude]
    push_cast
    rw [zpow_natCast]
  refine ⟨binadeOf p m j, m * 2 ^ d, ⟨?_, fun hk => ?_⟩, by rw [← scaledIn_value (p := p), hvalue]⟩
  · exact_mod_cast hvalue ▸ scaledIn_value_lt (p := p) (j := j) hm
  · exact_mod_cast hvalue ▸ den_le_scaledIn_value hm (exponentMin_le_of_binadeOf_pos hk)

theorem FloatFmt.bias_mono {p' : FloatFmt} (he : p.e ≤ p'.e) : p.bias ≤ p'.bias :=
  Nat.sub_le_sub_right (Nat.pow_le_pow_right two_pos (Nat.sub_le_sub_right he 1)) 1

/-- A format with no fewer exponent and fraction bits holds every finite value of a narrower one. -/
theorem exists_isFin_of_le {p' : FloatFmt} (hp : p.Ok) (he : p.e ≤ p'.e) (hf : p.f ≤ p'.f) {raw : BitVec p.width}
    {s : Bool} {q : ℚ} (h : (floatDecode p raw).IsFin s q) : ∃ raw', (floatDecode p' raw').IsFin s q := by
  have hp' : p'.Ok := ⟨hp.1.trans he, hp.2.trans hf⟩
  have hbias := FloatFmt.bias_mono he
  obtain ⟨k, M, hb, hlt, -, rfl⟩ := FloatFmt.isFin_iff.1 h
  rcases Nat.eq_zero_or_pos M with rfl | hM
  · exact ⟨_, 0, _, floatDecode_zero hp'.1 s, by simp [magnitude]⟩
  have hlen : M < 2 * p'.den := hb.lt.trans_le (Nat.mul_le_mul_left 2 (Nat.pow_le_pow_right two_pos hf))
  obtain ⟨k', M', hb', hq⟩ := exists_inBinade (j := (k : Int) + p.exponentMin - p.f) hM hlen (by
    unfold FloatFmt.exponentMin
    omega)
  rw [FloatFmt.magnitude_ulp] at hq
  have hbound : M' * p'.ulp k' < 2 ^ (p'.exponentMax + 1) := by
    rw [← hq]
    refine ((hp.index_lt_iff hb).1 hlt).trans_le (zpow_le_zpow_right₀ one_le_two ?_)
    unfold FloatFmt.exponentMax
    omega
  exact ⟨_, FloatFmt.isFin_iff.2 ⟨k', M', hb', (hp'.index_lt_iff hb').2 hbound, rfl, hq⟩⟩

/-- Settles O57: the native format holds the value (`exists_isFin_of_le`), so it is answered exactly
(`nativeEncode_of_isFin`). -/
theorem narrowFormatsUnpackExactly : Obligations.NarrowFormatsUnpackExactly := by
  intro nr nb w p raw s q hp he hf h
  obtain ⟨x, hx⟩ := exists_isFin_of_le hp he hf h
  rw [nativeEncode_of_isFin nr nb h hx]
  exact hx

/-! ## NaN -/

theorem nativeDecode_quietNaN (nb : NanBits) (w : Nat) : nativeDecode w (quietNaN nb (nativeFmt w)) = .nan := by
  cases nb with
  | canonical => exact floatDecode_canonicalNaN (nativeFmt_ok w) false
  | other k =>
    have hhalf : 2 ^ ((nativeFmt w).f - 1) + 2 ^ ((nativeFmt w).f - 1) = (nativeFmt w).den := by
      rw [← mul_two, ← pow_succ, Nat.sub_add_cancel (nativeFmt_ok w).2, FloatFmt.den]
    have hpos := Nat.two_pow_pos ((nativeFmt w).f - 1)
    have hmod := Nat.mod_lt (Config.nanPayload k) hpos
    exact floatDecode_quiet _ (by omega) (by omega)

/-- Settles O58: NaN is packed as the canonical pattern, which is a NaN (`floatDecode_canonicalNaN`), and answered as a
quiet NaN (`nativeDecode_quietNaN`), which the spec's bits make one number. -/
theorem naNIsCanonical : Obligations.NaNIsCanonical := by
  refine ⟨fun p w x hp hx => ⟨_, by rw [hx]; rfl, ?_, floatDecode_canonicalNaN hp false⟩,
    fun nr nb w => nativeDecode_quietNaN nb w, fun nr => ⟨rfl, rfl⟩⟩
  simpa using toNat_assembleFloat_exponentMask p false hp.half_lt_den

end

/-! ## The transport, and a pack and unpack on the machine -/

/-- The transport unpacks the pattern it packed (R143). -/
theorem fcRawOfWindow_fcWindowOfRaw {p : FloatFormatSpec} (h : p.check = none) (raw : BitVec p.toFloatFmt.width)
    (b : ByteOrder) : fcRawOfWindow p (fcWindowOfRaw p raw b) b = raw := by
  have hcheck := FloatFormatSpec.transport_check h
  obtain ⟨-, -, hn⟩ := BitWidthSpec.check_none hcheck
  rw [fcRawOfWindow, fcWindowOfRaw, icDecode_icEncode hcheck, icExtend_unsigned rfl]
  exact (setWidth_icMask hn _).trans ((BitVec.setWidth_setWidth_of_le raw hn).trans (BitVec.setWidth_eq raw))

/-- A value the format holds has a pattern of either sign. -/
theorem FloatFmt.Holds.exists_isFin {p : FloatFmt} {q : ℚ} (h : p.Holds q) (s : Bool) :
    ∃ raw, (floatDecode p raw).IsFin s q := by
  obtain ⟨k, M, hb, hlt, hq⟩ := FloatFmt.holds_iff.1 h
  exact ⟨_, FloatFmt.isFin_iff.2 ⟨k, M, hb, hlt, rfl, hq⟩⟩

/-- What a format makes of a native pattern whose value, where finite, it holds: a pattern that unpacks to the native
pattern again, or for a NaN to a NaN (R137). -/
theorem exists_pattern_nativeEncode (nr : NativeRound) (nb : NanBits) {p : FloatFmt} (hp : p.Ok) {w : Nat}
    (x : BitVec (nativeFmt w).width) (hx : ∀ s q, (nativeDecode w x).IsFin s q → p.Holds q) :
    ∃ raw, floatEncode p (nativeDecode w x) = .pattern raw
      ∧ (nativeDecode w x ≠ .nan → nativeEncode nr nb w (floatDecode p raw) = x)
      ∧ (nativeDecode w x = .nan → nativeDecode w (nativeEncode nr nb w (floatDecode p raw)) = .nan) := by
  cases h : nativeDecode w x with
  | nan =>
    refine ⟨_, rfl, fun hne => absurd rfl hne, fun _ => ?_⟩
    rw [floatDecode_canonicalNaN hp]
    exact nativeDecode_quietNaN nb w
  | inf s =>
    refine ⟨_, rfl, fun _ => ?_, nofun⟩
    rw [floatDecode_infinity]
    exact (eq_of_floatDecode_inf h).symm
  | fin s m j =>
    have hfin : (nativeDecode w x).IsFin s (magnitude m j) := ⟨m, j, h, rfl⟩
    obtain ⟨raw, hraw⟩ := (hx s _ hfin).exists_isFin s
    exact ⟨raw, floatEncode_of_isFin hp ⟨m, j, rfl, rfl⟩ hraw, fun _ => nativeEncode_of_isFin nr nb hraw hfin, nofun⟩

namespace Machine

/-- Settles O60: FC.PACK appends the window of the value's pattern, FC.UNPACK reads that pattern back
(`fcRawOfWindow_fcWindowOfRaw`), and what it unpacks to is VALUE_IN or a NaN (`exists_pattern_nativeEncode`). -/
theorem fcPackThenUnpack : Obligations.FcPackThenUnpack := by
  intro s d o x hready hroom hvalue hholds
  obtain ⟨-, hfc, -⟩ := CoreConfig.check_parts hready.1
  obtain ⟨hok, -, -, hw⟩ := FloatFormatSpec.check_none hfc
  have hwidth : (nativeFmt s.cfg.fc.w).width ≤ 64 := by
    rw [width_nativeFmt hw]
    omega
  have hin : fcValueIn s = x := by
    rw [fcValueIn, hvalue, BitVec.setWidth_setWidth_of_le _ hwidth, BitVec.setWidth_eq]
  obtain ⟨raw, hraw, hback, hnan⟩ := exists_pattern_nativeEncode s.cfg.nativeRound s.cfg.nanBits hok x hholds
  have hencoded : fcEncoded s = .pattern raw := by rw [fcEncoded, hin, hraw]
  have hresult : fcResult s d o (fcWindowOfRaw s.cfg.fc raw (s.cfg.order d o)) = some
      ((nativeEncode s.cfg.nativeRound s.cfg.nanBits s.cfg.fc.w (floatDecode s.cfg.fc.toFloatFmt raw)).setWidth 64) := by
    rw [fcResult, fcRawOfWindow_fcWindowOfRaw hfc]
  refine ⟨_, _, exec_fcPack_of_room hready.1 hencoded hroom d o,
    exec_fcUnpack_packed hready (length_fcWindowOfRaw _ _ _) d o, rfl, fun hne => ?_, fun heq => ⟨_, hresult, hnan heq⟩⟩
  exact hresult.trans (by rw [hback hne])

end Machine

end Sys2Proof
